-- ==== Sys2Proof/Word.lean ====
section
/-! DEFINITION. The words of P9813-FE: the 8-bit waveform byte, the 32-bit command word and chip word, the
24-bit pixel, the number type NUM and the strand index (rules R5, R6, R50). -/

namespace Sys2Proof

/-- `u8`: a waveform byte, a pin mask, a gamma entry, a colour channel (rules R6, R55). -/
abbrev Byte := BitVec 8

/-- `u32`: the command word `CW` and the per-pixel chip word `W` (rules R52, R59). -/
abbrev Word := BitVec 32

/-- `u24`: a logical pixel `0xRRGGBB` (rule R51). -/
abbrev Pixel := BitVec 24

/-- `NUM`: exact rationals (rules R5, R86). -/
abbrev Num := ℚ

/-- Strand indices are 0..7 (`N_STRAND_MAX`, rule R5). -/
abbrev Strand := Fin 8

/-- Channel numbers: 0 red, 1 green, 2 blue (rules R16, R17). -/
abbrev Channel := Fin 3

end Sys2Proof
end

