-- ==== Sys2Proof/Syntax.lean ====
section
/-! DEFINITION. The seven operations of the command table (rule R60), one constructor per row of
`spec/opcode_table.json`. -/

namespace Sys2Proof

/-- An operation with its `CW` operands (rule R61). Every operand is an unsigned integer as it stands; `n`,
`idx` are wider than their legal ranges on purpose, so out-of-range values reach the operation and are refused
there (rules R61, R156). Operands that the host passes in registers or memories are not part of the command. -/
inductive Instr where
  /-- `OPEN n, ppix, hw` (rule R142). -/
  | openSession (hw : Bool) (n ppix : Nat)
  /-- `CLOSE` (rule R149). -/
  | closeSession
  /-- `GAMMA_SIMPLE g`, `g` in `FARG[0]` (rule R71). -/
  | gammaSimple
  /-- `GAMMA_RANGE`, triples in `RANGE` and `FARG[0..2]` (rule R72). -/
  | gammaRange
  /-- `GAMMA_OFF` (rule R73). -/
  | gammaOff
  /-- `SET_PIN idx, mask` (rule R90). -/
  | setPin (idx : Nat) (mask : Byte)
  /-- `ENCODE pix, map, st`, the three presence bits in the order of the word (rules R95, R115). -/
  | encodeFrame (st map pix : Bool)
  deriving DecidableEq, Repr

end Sys2Proof
end

