-- ==== Sys2Proof/WellFormed.lean ====
section
/-! DEFINITION. Which instructions are well-formed: each operand fits its field of the command word (rule R61). -/

namespace Sys2Proof

/-- Every operand fits its `CW` field: `n` and `idx` are `u8`, `ppix` is `u16` (rule R61). -/
def Instr.wellFormed : Instr → Bool
  | .openSession _ n ppix => decide (n < 2 ^ 8) && decide (ppix < 2 ^ 16)
  | .closeSession => true
  | .gammaSimple => true
  | .gammaRange => true
  | .gammaOff => true
  | .setPin idx _ => decide (idx < 2 ^ 8)
  | .encodeFrame _ _ _ => true

end Sys2Proof
end

