-- ==== Sys2Proof/Decode.lean ====
section
/-! DEFINITION. The command decoder, total on all 32-bit words (rules R59 to R62), the match and mask rows of rule
R61, and the encoder. -/

namespace Sys2Proof

/-- Why a command word is illegal (rule R62). -/
inductive Illegal where
  /-- `op` is `0x0` or `0x8 .. 0xF`. -/
  | reservedOpcode (op : Nat)
  /-- `op` is `0x1 .. 0x7` but a must-be-zero bit is 1. -/
  | mustBeZero (op : Nat)
  deriving DecidableEq, Repr

/-- Unsigned field `w[hi:lo]` of a command word (rule R6). -/
def cwField (w : Word) (hi lo : Nat) : Nat := (w.extractLsb hi lo).toNat

/-- Accept `i` when the must-be-zero bits are 0 (rule R62). -/
def whenZero (op mbz : Nat) (i : Instr) : Except Illegal Instr :=
  if mbz = 0 then .ok i else .error (.mustBeZero op)

/-- The decoder of rules R59 to R62: `op = CW[31:28]`, then the fields and the must-be-zero bits of rule R61. -/
def decode (w : Word) : Except Illegal Instr :=
  match cwField w 31 28 with
  | 1 => whenZero 1 (cwField w 27 25) (.openSession (w.getLsbD 24) (cwField w 23 16) (cwField w 15 0))
  | 2 => whenZero 2 (cwField w 27 0) .closeSession
  | 3 => whenZero 3 (cwField w 27 0) .gammaSimple
  | 4 => whenZero 4 (cwField w 27 0) .gammaRange
  | 5 => whenZero 5 (cwField w 27 0) .gammaOff
  | 6 => whenZero 6 (cwField w 27 16) (.setPin (cwField w 15 8) (w.extractLsb 7 0))
  | 7 => whenZero 7 (cwField w 27 3) (.encodeFrame (w.getLsbD 2) (w.getLsbD 1) (w.getLsbD 0))
  | op => .error (.reservedOpcode op)

/-- A field value placed at bit `lo` of a command word, cut to its width. -/
def cwPlace (width value lo : Nat) : Word := ((BitVec.ofNat width value).setWidth 32) <<< lo

/-- The command word of an instruction (the encodings of rules R71 to R73, R90, R115, R142, R149). -/
def encode : Instr → Word
  | .openSession hw n ppix => 0x10000000 ||| cwPlace 1 hw.toNat 24 ||| cwPlace 8 n 16 ||| cwPlace 16 ppix 0
  | .closeSession => 0x20000000
  | .gammaSimple => 0x30000000
  | .gammaRange => 0x40000000
  | .gammaOff => 0x50000000
  | .setPin idx mask => 0x60000000 ||| cwPlace 8 idx 8 ||| mask.setWidth 32
  | .encodeFrame st map pix =>
    0x70000000 ||| cwPlace 1 st.toNat 2 ||| cwPlace 1 map.toNat 1 ||| cwPlace 1 pix.toNat 0

/-- One row of rule R61: `CW & mask = pattern` selects the operation. -/
structure OpcodeRow where
  op : Nat
  pattern : Word
  mask : Word
  deriving DecidableEq, Repr

/-- The table of rule R61, row by row. -/
def opcodeRows : List OpcodeRow :=
  [ { op := 1, pattern := 0x10000000, mask := 0xFE000000 },
    { op := 2, pattern := 0x20000000, mask := 0xFFFFFFFF },
    { op := 3, pattern := 0x30000000, mask := 0xFFFFFFFF },
    { op := 4, pattern := 0x40000000, mask := 0xFFFFFFFF },
    { op := 5, pattern := 0x50000000, mask := 0xFFFFFFFF },
    { op := 6, pattern := 0x60000000, mask := 0xFFFF0000 },
    { op := 7, pattern := 0x70000000, mask := 0xFFFFFFF8 } ]

/-- `CW & mask = match` (rule R61). -/
def OpcodeRow.selects (r : OpcodeRow) (w : Word) : Bool := w &&& r.mask == r.pattern

/-- The opcode of an instruction (rule R60). -/
def Instr.op : Instr → Nat
  | .openSession _ _ _ => 1
  | .closeSession => 2
  | .gammaSimple => 3
  | .gammaRange => 4
  | .gammaOff => 5
  | .setPin _ _ => 6
  | .encodeFrame _ _ _ => 7

/-- `OPEN.RAW n_raw, ppix` (rules R57, R65, R152): the legacy one-number strand count, expanded to an `OPEN`. -/
def openRaw (nRaw ppix : Nat) : Instr :=
  .openSession (decide (8 ≤ nRaw)) (if 8 ≤ nRaw then nRaw - 8 else nRaw) ppix

/-- `ALLOFF` (rule R65): `ENCODE -, -, -`. -/
def allOff : Instr := .encodeFrame false false false

/-- `GAMMA_IDENT` (rule R65): `GAMMA_OFF`. -/
def gammaIdent : Instr := .gammaOff

/-- The instruction the decoder reads from the word whose low `nbits` bits are `w` (the bits above are 0). -/
def decodeTableWord (nbits w : Nat) : Option Instr :=
  (decode (BitVec.ofNat 32 (w % 2 ^ nbits))).toOption

end Sys2Proof
end

