-- ==== Sys2Proof/Config.lean ====
section
/-! DEFINITION. What an instance of the block fixes (the parameters of rule R5) and the free values: values the
spec leaves open, held as constants without a body, so that nothing can be proved of them but their type. -/

namespace Sys2Proof

/-- `GAMMA[c][i]`: 3 x 256 bytes (rule R17). -/
abbrev GammaTable := Vector (Vector Byte 256) 3

/-- A vector entry by entry (through a list, which Lean's kernel evaluates well). -/
def tabulate {α : Type} {n : Nat} (f : Fin n → α) : Vector α n :=
  Vector.mk (List.ofFn f).toArray (by simp)

/-- A table entry by entry. -/
def GammaTable.tabulate (f : Channel → Fin 256 → Byte) : GammaTable :=
  Sys2Proof.tabulate fun c => Sys2Proof.tabulate fun i => f c i

/-- `GAMMA[c][v]` for a byte `v`; a byte is always a legal index (rule R118). -/
def GammaTable.entry (g : GammaTable) (c : Channel) (v : Byte) : Byte :=
  (g.get c).get v.toFin

/-- `CAL`: the seven calibration constants of the current model (rules R18, R80). -/
structure Cal where
  base : Num
  cr : Num
  cg : Num
  cb : Num
  kRG : Num
  kGB : Num
  kRB : Num
  deriving DecidableEq, Repr

/-- The constraints rule R80 puts on `CAL`. -/
abbrev Cal.Legal (c : Cal) : Prop :=
  0 ≤ c.base ∧ 0 ≤ c.cr ∧ 0 ≤ c.cg ∧ 0 ≤ c.cb ∧
  (0 ≤ c.kRG ∧ c.kRG ≤ 1) ∧ (0 ≤ c.kGB ∧ c.kGB ≤ 1) ∧ (0 ≤ c.kRB ∧ c.kRB ≤ 1)

/-- The OPEN parameters of one block instance (rules R5, R177 item 1). They never change. -/
structure Config where
  /-- `P_MAX`, the capacity of the block's buffers (D5). -/
  pMax : Nat
  /-- `PIN_DEFAULT[0..7]` (D6, rule R93). -/
  pinDefault : Vector Byte 8
  /-- `GAMMA_DEFAULT` (D7, rule R145). -/
  gammaDefault : GammaTable
  /-- `CAL` (D11, rule R80). -/
  cal : Cal
  deriving DecidableEq, Repr

/-- The constraints of rule R5 on the parameters: `1 ≤ P_MAX ≤ 65535`, every `PIN_DEFAULT[k] ≠ 0`, and those of
rule R80 on `CAL`. -/
abbrev Config.Legal (c : Config) : Prop :=
  1 ≤ c.pMax ∧ c.pMax ≤ 65535 ∧ (∀ k : Strand, c.pinDefault.get k ≠ 0) ∧ c.cal.Legal

/-- Some value of an inhabited type. It has no body: nothing can be proved of the value but its type. -/
opaque Config.anyValue {α : Type} [Inhabited α] : α

/-- Legal configurations exist: the example XCFG of `95_test_vectors.md` with an all-zero default table. It only
shows that the type is inhabited; none of its numbers reaches `Config.ofInstance`. -/
def Config.legalWitness : { c : Config // c.Legal } :=
  ⟨{ pMax := 1024
     pinDefault := #v[0x01, 0x02, 0x04, 0x08, 0x10, 0x20, 0x40, 0x80]
     gammaDefault := GammaTable.tabulate fun _ _ => 0
     cal := { base := 1, cr := 20, cg := 20, cb := 20, kRG := 9/10, kGB := 4/5, kRB := 3/4 } },
   by decide +kernel⟩

/-- The parameters of the instance that `State.reset` describes: SOME legal configuration, no more is known of it
(rule R5: OPEN parameters; rules R26, R93 and N3, N4, N5: no value may be assumed). DESIGN CHOICE, safe: log 1. -/
def Config.ofInstance : { c : Config // c.Legal } :=
  @Config.anyValue _ ⟨Config.legalWitness⟩

/-- What `GAMMA` holds after reset: a free value (rule R26, U9: "no value"). DESIGN CHOICE, safe: log 2. -/
opaque Config.gammaAtReset : Channel → Fin 256 → Byte

/-- What a `PIX` element that the host did not write reads as: a free value for each element (rule R186, U5).
DESIGN CHOICE, safe: log 3. -/
opaque Config.pixUnwritten : Nat → Pixel

/-- What a `REMAP` element that the host did not write reads as: a free value for each element (rule R186, U5).
DESIGN CHOICE, safe: log 3. -/
opaque Config.remapUnwritten : Nat → Word

end Sys2Proof
end

