-- ==== Sys2Proof/Machine/State.lean ====
section
/-! DEFINITION. The state of one block instance (rule R10) as plain data, the reasons a step can stop, and the state
after reset (rules R26, R175). -/

namespace Sys2Proof.Machine

/-- Result codes (rule R63). -/
inductive Status where
  | ok
  | invalidParameter
  | allocationFailure
  | deviceOpenFailure
  | bitModeFailure
  | transmitFailure
  | divisorWarning
  | baudRateWarning
  deriving DecidableEq, Repr

/-- `env.open_outcome`: which fatal transport step of OPEN failed first, if any (rule R141). -/
inductive OpenOutcome where
  | good
  | deviceOpenFailure
  | bitModeFailure
  | transmitFailure
  deriving DecidableEq, Repr

/-- `env.warn`: the warning the transport reports to OPEN (rule R141). -/
inductive OpenWarning where
  | none
  | divisorWarning
  | baudRateWarning
  deriving DecidableEq, Repr

/-- The draws that answer one operation (rules R44, R112, R120, R141); an operation reads only those its rule names. -/
structure Env where
  openOutcome : OpenOutcome
  warn : OpenWarning
  txOk : Bool
  ioUsec : Nat
  tNow : Nat
  deriving DecidableEq, Repr

/-- `STATS`, the record of rule R22: counters are unbounded naturals, derived figures are `NUM`. -/
structure Stats where
  frames : Nat
  bits : Nat
  bitsTotal : Nat
  bps : Num
  bpsAvg : Num
  usecIo : Nat
  usecIoTotal : Nat
  usecFrame : Nat
  usecFrameTotal : Nat
  fps : Num
  fpsAvg : Num
  ma : Num
  maPeak : Num
  maAvg : Num
  mah : Num
  mahTotal : Num
  lastTime : Nat
  deriving DecidableEq, Repr

/-- The initial record: every field zero (rule R137). -/
def Stats.zero : Stats :=
  { frames := 0, bits := 0, bitsTotal := 0, bps := 0, bpsAvg := 0, usecIo := 0, usecIoTotal := 0,
    usecFrame := 0, usecFrameTotal := 0, fps := 0, fpsAvg := 0, ma := 0, maPeak := 0, maAvg := 0,
    mah := 0, mahTotal := 0, lastTime := 0 }

/-- What the host does between operations (rules R8, R16, R59). DESIGN CHOICE, log 5. -/
inductive HostAction where
  /-- Write `CW`, which starts the operation; `env` are the draws that answer it. -/
  | command (w : Word) (env : Env)
  | writeFarg (c : Channel) (v : BitVec 64)
  | writeRange (v : BitVec 48)
  | writePixlen (n : BitVec 32)
  /-- Write `PIX[e]` from a 32-bit container, whose bits 31:24 are ignored (rule R31). -/
  | writePix (e : Nat) (container : BitVec 32)
  | writeRemap (i : Nat) (v : BitVec 32)
  /-- Present a `STATS` record for the operations to come (rules R22, R48). -/
  | writeStats (r : Stats)
  /-- Read `OUT[a]` (rule R39: no side effect). -/
  | readOut (a : Nat)
  /-- Read `CURA[i]` (rules R20, R39). -/
  | readCura (i : Nat)
  /-- Read `STATUS` (rules R8, R15). -/
  | readStatus
  /-- Read the `STATS` record (rules R8, R22, R48). -/
  | readStats
  deriving DecidableEq, Repr

/-- A memory of elements: (address, element) pairs in one canonical form (`Memory.Wf`); the address is an element
index (rule R30). A memory of bytes is a list of `Host.Cell`. -/
abbrev Memory (α : Type) := List (Nat × α)

/-- The complete state of one block instance (rule R10), with the three fields of the model's own: `env`, `pending`
and `handed` (logs 5, 6, 8). -/
structure State where
  /-- `OPENED` (rule R11). -/
  opened : Bool
  /-- `S`, the number of strands rendered (rule R11). -/
  S : Fin 9
  /-- `P`, pixels per strand (rule R11). -/
  P : Nat
  /-- `HW`, hardware clock (rule R11). -/
  HW : Bool
  /-- `PINMAP[0..7]` (rule R13). -/
  pinmap : Vector Byte 8
  /-- `GAMMA` (rule R17). -/
  gamma : GammaTable
  /-- `OUT`, exists only while `opened` (rule R19). -/
  out : Memory Byte
  /-- `CURA`, exists only while `opened`; an unlisted element holds no value (rule R20). -/
  cura : Memory Num
  /-- `STATUS` (rule R15). -/
  status : Status
  /-- `CW` (rule R16). -/
  cw : Word
  /-- `FARG[0..2]` (rule R16). -/
  farg : Vector (BitVec 64) 3
  /-- `RANGE` (rule R16). -/
  range : BitVec 48
  /-- `PIXLEN` (rule R16). -/
  pixlen : BitVec 32
  /-- `PIX`, host memory (rule R21). -/
  pix : Memory Pixel
  /-- `REMAP`, host memory (rule R21). -/
  remap : Memory Word
  /-- `STATS`, host memory (rule R22). -/
  stats : Stats
  /-- The instance's parameters, `CAL` (rule R18) among them; read-only. -/
  cfg : Config
  /-- The draws that answer the operation in progress (rule R44). The model's own: log 6. -/
  env : Env
  /-- The host's actions still to come (rules R8, R14). The model's own: log 5. -/
  pending : List HostAction
  /-- The writes handed to the transport, newest first (rule R111). The model's own: log 8. -/
  handed : List (List Byte)
  deriving DecidableEq, Repr

/-- Why the machine stops with a fault. No operation of the block raises one (rule R40); only a host's read does. -/
inductive Fault where
  /-- A host's read of `OUT[a]` that does not exist: Closed, or `a ≥ L` (rule R19). Raised by `State.outAt`. Safe: the
  spec gives such a read no result. -/
  | outAbsent (a : Nat)
  /-- A host's read of `CURA[i]` that does not exist: Closed, or `i ≥ S·P` (rule R20). Raised by `State.curaAt`. Safe. -/
  | curaAbsent (i : Nat)
  /-- A read of a `CURA` element that holds no value (rule R20, U8). Raised by `State.curaAt` for a host's read, and by
  the sum of the STAT phase, which never meets one. Safe. -/
  | curaNoValue (i : Nat)
  deriving DecidableEq, Repr

/-- Why a run has no meaning in the model. -/
inductive Refusal where
  /-- The instruction has no meaning in the model. No arm of `exec` answers it: every row of the table is modelled. Safe. -/
  | notModelled (mnemonic : String)
  /-- ENCODE with statistics while `STATS.frames > 0` and `env.t_now < STATS.lastTime` (rule R136, U6: "refuse"). Raised
  by the STAT phase of ENCODE. Safe: nothing is claimed of such a run. Log 11. -/
  | clockStepsBack
  deriving DecidableEq, Repr

/-- The draws before any command: read by nothing, since a command brings its own. DESIGN CHOICE, log 6. -/
def Env.initial : Env := { openOutcome := .good, warn := .none, txOk := true, ioUsec := 0, tNow := 0 }

/-- The state after reset of an instance with parameters `c` (rules R26, R175). -/
def State.resetOf (c : Config) : State where
  opened := false
  S := 0
  P := 0
  HW := false
  pinmap := c.pinDefault
  gamma := GammaTable.tabulate Config.gammaAtReset
  out := []
  cura := []
  status := .ok
  cw := 0
  farg := #v[0, 0, 0]
  range := 0
  pixlen := 0
  pix := []
  remap := []
  stats := Stats.zero
  cfg := c
  env := Env.initial
  pending := []
  handed := []

/-- The state after reset (rules R26, R175), of an instance about whose parameters only their legality is known. -/
def State.reset : State := State.resetOf Config.ofInstance.val

end Sys2Proof.Machine
end

