-- ==== Sys2Proof/Machine/Flags.lean ====
section
/-! DEFINITION. Result codes: their numbers, their classes (rules R63, R158) and the write of `STATUS` (rule R15), the
block's only flag. -/

namespace Sys2Proof.Machine

/-- The number of a result code (rule R63). -/
def Status.code : Status → Nat
  | .ok => 0
  | .invalidParameter => 1
  | .allocationFailure => 2
  | .deviceOpenFailure => 3
  | .bitModeFailure => 4
  | .transmitFailure => 5
  | .divisorWarning => 6
  | .baudRateWarning => 7

/-- `is_failure(c) = (1 ≤ c ≤ 5)` (rule R63). -/
def Status.isFailure (k : Status) : Bool := decide (1 ≤ k.code) && decide (k.code ≤ 5)

/-- `is_warning(c) = (c ≥ 6)` (rule R63). -/
def Status.isWarning (k : Status) : Bool := decide (6 ≤ k.code)

/-- The result a warning draw gives to a successful OPEN (rule R147). -/
def OpenWarning.status : OpenWarning → Status
  | .none => .ok
  | .divisorWarning => .divisorWarning
  | .baudRateWarning => .baudRateWarning

/-- The result the transport's answer gives to ENCODE (rules R112, R115 phase E). -/
def txStatus (ok : Bool) : Status := if ok then .ok else .transmitFailure

/-- `return k`: write `STATUS`, the last action of every operation (rules R7, R15). -/
def State.done (s : State) (k : Status) : State := { s with status := k }

end Sys2Proof.Machine
end

