-- ==== Sys2Proof/Machine/Operands.lean ====
section
/-! DEFINITION. The operand forms: pixel channels (rules R51, R98), remap entries (rule R54), the `RANGE` bytes and
the binary64 exponents of `FARG` (rule R58). -/

namespace Sys2Proof.Machine

/-- Three 8-bit channel values, raw or corrected. -/
structure Rgb where
  r : Byte
  g : Byte
  b : Byte
  deriving DecidableEq, Repr

/-- `r = v[23:16]`, `g = v[15:8]`, `b = v[7:0]` (rules R51, R98). -/
def pixelChannels (v : Pixel) : Rgb :=
  { r := v.extractLsb' 16 8, g := v.extractLsb' 8 8, b := v.extractLsb' 0 8 }

/-- The pixel in a 32-bit container: bits 31:24 are ignored (rule R31). -/
def containerPixel (c : BitVec 32) : Pixel := c.extractLsb' 0 24

/-- `sext(REMAP[i])`: a remap entry is a 32-bit two's-complement number (rule R54). -/
def remapValue (v : Word) : Int := v.toInt

/-- `min[c]` of `RANGE`: byte `2c` (rule R58). -/
def rangeMin (r : BitVec 48) (c : Channel) : Byte := r.extractLsb' (16 * c.val) 8

/-- `max[c]` of `RANGE`: byte `2c + 1` (rule R58). -/
def rangeMax (r : BitVec 48) (c : Channel) : Byte := r.extractLsb' (16 * c.val + 8) 8

/-- Bit 63 of a binary64 pattern (rule R58). -/
def fargSign (v : BitVec 64) : Bool := v.getLsbD 63

/-- `E`, bits 62:52 of a binary64 pattern (rule R58). -/
def fargBiased (v : BitVec 64) : Nat := (v.extractLsb' 52 11).toNat

/-- `f`, bits 51:0 of a binary64 pattern (rule R58). -/
def fargFraction (v : BitVec 64) : Nat := (v.extractLsb' 0 52).toNat

/-- A legal exponent is finite and greater than zero (rules R58, R76). -/
def fargLegal (v : BitVec 64) : Bool :=
  !fargSign v && !(fargBiased v == 2047) && !(fargBiased v == 0 && fargFraction v == 0)

/-- The integer significand: `2^52 + f` for a normal number, `f` for a subnormal one. -/
def fargSignificand (v : BitVec 64) : Nat :=
  if fargBiased v = 0 then fargFraction v else 2 ^ 52 + fargFraction v

/-- The exact value of a finite pattern without its sign (rule R58): the significand times `2^(max(E,1) − 1075)`. -/
def fargValue (v : BitVec 64) : Num :=
  let e := max (fargBiased v) 1
  if 1075 ≤ e then mkRat (fargSignificand v * 2 ^ (e - 1075)) 1
  else mkRat (fargSignificand v) (2 ^ (1075 - e))

/-- What a physical slot shows (rule R97). -/
inductive SlotKind where
  /-- Lit from the logical pixel `v`. -/
  | lit (v : Pixel)
  /-- Off, baseline current. -/
  | off
  /-- Off, zero current. -/
  | disc
  deriving DecidableEq, Repr

end Sys2Proof.Machine
end

