-- ==== Sys2Proof/Machine/Ops.lean ====
section
/-! DEFINITION. The named operations over memories and registers: element memories in canonical form (rules R30, R39,
R40), the derived session quantities (rule R12), the element reads of each space, the result of a failed operation
(rule R161) and the hand-over to the transport (rule R111). -/

namespace Sys2Proof.Machine

/-! ### Element memories -/

/-- The listed element at address `a`, if there is one. -/
def Memory.find {α : Type} (m : Memory α) (a : Nat) : Option α :=
  (List.find? (fun c => c.1 == a) m).map Prod.snd

/-- The listed elements of a run of elements starting at `base`: all but those equal to what an unlisted address
reads as. -/
def Memory.run {α : Type} [DecidableEq α] (unlisted : Option α) (base : Nat) : List α → Memory α
  | [] => []
  | v :: vs =>
    if unlisted = some v then Memory.run unlisted (base + 1) vs
    else (base, v) :: Memory.run unlisted (base + 1) vs

/-- Write consecutive elements from address `base` on, keeping the canonical form. `unlisted` is what an unlisted
address of this memory reads as. -/
def Memory.writeRun {α : Type} [DecidableEq α] (unlisted : Option α) (m : Memory α) (base : Nat) (vs : List α) :
    Memory α :=
  m.filter (fun c => decide (c.1 < base)) ++ Memory.run unlisted base vs
    ++ m.filter (fun c => decide (base + vs.length ≤ c.1))

/-- `MemWrite(SPACE[a], 1, v)` (rule R7). -/
def Memory.write {α : Type} [DecidableEq α] (unlisted : Option α) (m : Memory α) (a : Nat) (v : α) : Memory α :=
  Memory.writeRun unlisted m a [v]

/-- The canonical form: addresses strictly rising, no entry equal to what an unlisted address reads as. -/
abbrev Memory.Wf {α : Type} [DecidableEq α] (unlisted : Option α) (m : Memory α) : Prop :=
  m.Pairwise (fun c d => c.1 < d.1) ∧ ∀ c ∈ m, unlisted ≠ some c.2

/-- The canonical form as a Bool. -/
def Memory.wf {α : Type} [DecidableEq α] (unlisted : Option α) (m : Memory α) : Bool :=
  decide (Memory.Wf unlisted m)

/-- What an unlisted `OUT` address reads as: 0. Every byte of an existing `OUT` has been written by OPEN's latch and
all-off renders, so no operation meets the choice. DESIGN CHOICE, log 10. -/
def outUnlisted : Option Byte := some 0

/-- An unlisted `CURA` element holds no value (rule R20). -/
def curaUnlisted : Option Num := none

/-- An unlisted `PIX` element was not written by the host (rule R186; log 3). -/
def pixUnlisted : Option Pixel := none

/-- An unlisted `REMAP` element was not written by the host (rule R186; log 3). -/
def remapUnlisted : Option Word := none

/-- The byte at address `a` of a byte memory. -/
def outByte (m : Memory Byte) (a : Nat) : Byte := (m.find a).getD 0

/-- `MemRead(OUT[base], n)` as a list, lowest address first (rule R7). -/
def outRun (m : Memory Byte) (base n : Nat) : List Byte := (List.range n).map fun k => outByte m (base + k)

/-- The canonical form of all four memories of the state. -/
def State.memWf (s : State) : Bool :=
  Memory.wf outUnlisted s.out && Memory.wf curaUnlisted s.cura && Memory.wf pixUnlisted s.pix
    && Memory.wf remapUnlisted s.remap

/-! ### Derived session quantities (rule R12) -/

/-- `BPS`: bytes per pixel slot. -/
def bps (hw : Bool) : Nat := if hw then 32 else 64

/-- `BPS` of the session. -/
def State.BPS (s : State) : Nat := bps s.HW

/-- `L`, the length of `OUT` in bytes. -/
def State.L (s : State) : Nat := (s.P + 1) * s.BPS

/-- `NSLOT`, the number of physical slots. -/
def State.NSLOT (s : State) : Nat := s.S.val * s.P

/-- `CLK = PINMAP[7]`, the clock mask. -/
def State.CLK (s : State) : Byte := s.pinmap.get 7

/-- `PINMAP[k]`. -/
def State.pin (s : State) (k : Strand) : Byte := s.pinmap.get k

/-- `slot(s, p) = s·P + p` (rule R33). -/
def slotIndex (P : Nat) (k : Strand) (p : Nat) : Nat := k.val * P + p

/-- The rendered strands `0 .. S−1`, ascending. -/
def strandsBelow (S : Fin 9) : List Strand :=
  [0, 1, 2, 3, 4, 5, 6, 7].filter fun k => decide (k.val < S.val)

/-- The physical slots "in strand-major then position-minor order" (rule R33). -/
def slotOrder (S : Fin 9) (P : Nat) : List (Strand × Nat) :=
  (strandsBelow S).flatMap fun k => (List.range P).map fun p => (k, p)

/-! ### Element reads -/

/-- `PIX[e]`: the host's element, or a free value where the host wrote none (rules R31, R186). -/
def State.pixAt (s : State) (e : Nat) : Pixel := (s.pix.find e).getD (Config.pixUnwritten e)

/-- `REMAP[i]`: the host's element, or a free value where the host wrote none (rules R32, R186). -/
def State.remapAt (s : State) (i : Nat) : Word := (s.remap.find i).getD (Config.remapUnwritten i)

/-- A read of `OUT[a]`: it exists only while Open and below `L` (rule R19). -/
def State.outAt (s : State) (a : Nat) : Except Fault Byte :=
  if s.opened && decide (a < s.L) then .ok (outByte s.out a) else .error (.outAbsent a)

/-- A read of `CURA[i]`: it exists only while Open and below `S·P`, and may hold no value (rule R20). -/
def State.curaAt (s : State) (i : Nat) : Except Fault Num :=
  if s.opened && decide (i < s.NSLOT) then
    match s.cura.find i with
    | some c => .ok c
    | none => .error (.curaNoValue i)
  else .error (.curaAbsent i)

/-! ### Failure, and the transport -/

/-- `raise k`: taking an exception. An operation that fails saves nothing and transfers control nowhere: it writes
`STATUS` and ends (rules R7, R157, R161). There is nothing to return from (rule R162). -/
def State.raise (s : State) (k : Status) : State := s.done k

/-- Hand the transport the `L` bytes `OUT[0], …, OUT[L−1]` in one write (rule R111). -/
def State.transmit (s : State) : State := { s with handed := outRun s.out 0 s.L :: s.handed }

end Sys2Proof.Machine
end

