-- ==== Sys2Proof/Machine/Current.lean ====
section
/-! DEFINITION. The Current Model: the estimated current of one physical slot (rules R80 to R86), exact over NUM. -/

namespace Sys2Proof.Machine

/-- The combinational factor of a pair of channels, `f(x, y, k) = 1 − (x·y/255²)·(1 − k)` (rule R81). -/
def comboFactor (x y : Byte) (k : Num) : Num := 1 - ((x.toNat : Num) * y.toNat / 65025) * (1 - k)

/-- `CURRENT(R, G, B)` for corrected values (rule R82). -/
def current (cal : Cal) (v : Rgb) : Num :=
  cal.base + (((v.r.toNat : Num) * cal.cr + v.g.toNat * cal.cg + v.b.toNat * cal.cb) / 255)
    * comboFactor v.r v.g cal.kRG * comboFactor v.g v.b cal.kGB * comboFactor v.r v.b cal.kRB

/-- The current of a slot by its kind: `CURRENT` of the corrected values, `base`, or 0 (rules R83, R105). -/
def slotCurrent (cal : Cal) (kind : SlotKind) (v : Rgb) : Num :=
  match kind with
  | .lit _ => current cal v
  | .off => cal.base
  | .disc => 0

end Sys2Proof.Machine
end

