-- ==== Sys2Proof/Machine/Statistics.lean ====
section
/-! DEFINITION. The Statistics Engine: the STAT phase of ENCODE (rules R120 to R138). -/

namespace Sys2Proof.Machine

/-- One hour in microseconds (rule R138). -/
def usecPerHour : Num := 3600 * 1000000

/-- `n / d` where the denominator is an elapsed time, 0 when it is 0 (rule R134). -/
def rateOrZero (n : Num) (d : Nat) : Num := if 0 < d then n / d else 0

/-- Bits of the frame: `S·L`, halved in software-clock mode (rule R121). -/
def frameBits (S L : Nat) (hw : Bool) : Nat := if hw then S * L else S * L / 2

/-- The throughput group (rules R121 to R124). -/
def Stats.throughput (r : Stats) (bits io : Nat) : Stats :=
  let bps := rateOrZero (bits * 1000000) io
  let ioTotal := r.usecIoTotal + io
  let bitsTotal := r.bitsTotal + bits
  { r with
    bits := bits
    usecIo := io
    usecIoTotal := ioTotal
    bps := bps
    bitsTotal := bitsTotal
    bpsAvg := if 0 < ioTotal then (bitsTotal * 1000000 : Num) / ioTotal else bps }

/-- The period group, for a frame that is not the first of its record (rules R126 to R130). -/
def Stats.period (r : Stats) (now : Nat) : Stats :=
  let usec := now - r.lastTime
  let total := r.usecFrameTotal + usec
  let mah := r.ma * usec / usecPerHour
  let mahTotal := r.mahTotal + mah
  { r with
    usecFrame := usec
    usecFrameTotal := total
    fps := rateOrZero 1000000 usec
    fpsAvg := rateOrZero (r.frames * 1000000) total
    mah := mah
    mahTotal := mahTotal
    maAvg := rateOrZero (mahTotal * usecPerHour) total }

/-- The current of the new frame and the bookkeeping (rules R131, R132). -/
def Stats.bookkeep (r : Stats) (sum : Num) (now : Nat) : Stats :=
  { r with
    ma := sum
    maPeak := max r.maPeak sum
    lastTime := now
    frames := r.frames + 1 }

/-- `STAT_UPDATE(STATS, io, now)` (rule R133); `sum` is the sum of `CURA`. The period group is skipped on the first
frame (rule R125). -/
def Stats.update (r : Stats) (bits io now : Nat) (sum : Num) : Stats :=
  let t := r.throughput bits io
  (if 0 < r.frames then t.period now else t).bookkeep sum now

/-- The premise of rule R136: time does not run backwards between frames of one record. -/
def Stats.clockRuns (r : Stats) (now : Nat) : Bool := decide (r.frames = 0) || decide (r.lastTime ≤ now)

/-- `CURA[0] + … + CURA[n−1]` (rule R131). An element without a value is no number (rule R20), so the sum is checked; after
a render every element has its value. -/
def curaSum (cura : Memory Num) : Nat → Except Fault Num
  | 0 => .ok 0
  | n + 1 =>
    match curaSum cura n, cura.find n with
    | .ok t, some c => .ok (t + c)
    | .ok _, none => .error (.curaNoValue n)
    | .error f, _ => .error f

/-- Phase D of ENCODE with `st = 1` (rules R113, R120, R133). A clock that stepped backwards has no meaning (rule R136,
U6: "refuse"; log 11). -/
def State.statPhase (s : State) : Host.Outcome State Fault Refusal :=
  if s.stats.clockRuns s.env.tNow then
    match curaSum s.cura s.NSLOT with
    | .ok sum =>
      .next { s with stats := s.stats.update (frameBits s.S.val s.L s.HW) s.env.ioUsec s.env.tNow sum }
    | .error f => .fault f
  else .refused .clockStepsBack

end Sys2Proof.Machine
end

