-- ==== Sys2Proof/Machine/Waveform.lean ====
section
/-! DEFINITION. The waveform in `OUT`: packing a command word (rules R52, R53, R100), clearing a pixel slot (rule R101),
transposing a word into it (rule R102), rendering the pixel region (phase B of rule R115) and the latch trailer (rule
R143). -/

namespace Sys2Proof.Machine

/-- The two most-significant bits of a corrected channel value, `X'[7:6]` (rule R53). -/
def top2 (x : Byte) : BitVec 2 := x.extractLsb' 6 2

/-- The control byte: `11`, then the inverted top two bits of blue, green and red (rule R53). -/
def controlByte (v : Rgb) : Byte :=
  (0b11#2 : BitVec 2) ++ (~~~ top2 v.b) ++ (~~~ top2 v.g) ++ (~~~ top2 v.r)

/-- `PACK(R', G', B')`: control byte, blue, green, red (rules R52, R100). -/
def pack (v : Rgb) : Word := controlByte v ++ v.b ++ v.g ++ v.r

/-- The corrected values of an off or disconnected slot (rule R99). -/
def offRgb : Rgb := { r := 0, g := 0, b := 0 }

/-- The bytes CLEAR writes into one pixel slot: zeros, or `0, CLK` pairs with the software clock (rule R101). -/
def clearBytes (hw : Bool) (clk : Byte) : List Byte :=
  (List.range 32).flatMap fun _ => if hw then [0] else [0, clk]

/-- `CLEAR(q)` (rule R101). -/
def clearSlot (hw : Bool) (clk : Byte) (out : Memory Byte) (q : Nat) : Memory Byte :=
  Memory.writeRun outUnlisted out (q * bps hw) (clearBytes hw clk)

/-- What TRANSPOSE ORs into the bytes of one pixel slot: for `j = 0..31` the strand's mask where word bit `31 − j` is 1
and nothing where it is 0, in one byte or in both bytes of the pair (rule R102). -/
def strandBytes (hw : Bool) (mask : Byte) (w : Word) : List Byte :=
  (List.range 32).flatMap fun j =>
    let d := if w.getLsbD (31 - j) then mask else 0
    if hw then [d] else [d, d]

/-- `TRANSPOSE` on the bytes of one pixel slot (rule R102). -/
def transposeBytes (hw : Bool) (slot : List Byte) (mask : Byte) (w : Word) : List Byte :=
  List.zipWith (· ||| ·) slot (strandBytes hw mask w)

/-- The bytes of pixel slot `p`: cleared, then every rendered strand's word at this position transposed into it, strand 0
first (rules R101 to R103). -/
def slotBytes (s : State) (word : Strand → Nat → Word) (p : Nat) : List Byte :=
  (strandsBelow s.S).foldl (fun bs k => transposeBytes s.HW bs (s.pin k) (word k p)) (clearBytes s.HW s.CLK)

/-- `OUT` after phase B of rule R115: pixel slots `0 .. P−1` rendered, one after the other. The pseudocode clears all slots
and then goes strand by strand; a slot's bytes depend on that slot only, so the bytes are the same (rule R103;
`Reference.lean` holds the pseudocode's own loops). `word k p` is `W(k, p)`. -/
def renderOut (s : State) (word : Strand → Nat → Word) : Memory Byte :=
  Memory.writeRun outUnlisted s.out 0 ((List.range s.P).flatMap (slotBytes s word))

/-- `LATCH()`: the last pixel slot rendered with no data bit, with the clock mask as it is now (rule R143). -/
def State.latch (s : State) : State := { s with out := clearSlot s.HW s.CLK s.out s.P }

/-- `RENDER_ALL_OFF()`: the off word for every strand at every position (rules R110, R144). -/
def State.renderAllOff (s : State) : State := { s with out := renderOut s fun _ _ => pack offRgb }

/-- The first of the two bytes that carry word bit `b` of position `p`, or the only one (rule R35). -/
def bitOffset (hw : Bool) (p b : Nat) : Nat :=
  if hw then 32 * p + (31 - b) else 64 * p + 2 * (31 - b)

/-- `DECODE(s, p)` of rule R108: bit `b` is 1 iff the byte that carries it holds the strand's whole mask; with `second`,
the other byte of the pair ("or that + 1", software clock only). -/
def decodeWord (hw second : Bool) (out : Memory Byte) (mask : Byte) (p : Nat) : Word :=
  BitVec.ofBoolListLE ((List.range 32).map fun b =>
    outByte out (bitOffset hw p b + if second && !hw then 1 else 0) &&& mask == mask)

end Sys2Proof.Machine
end

