-- ==== Sys2Proof/Machine/Encoder.lean ====
section
/-! DEFINITION. The Frame Encoder: ENCODE (rules R95 to R118). -/

namespace Sys2Proof.Machine

/-- `e`: the remap entry of slot `i`, or `i` itself under the identity mapping (rules R32, R96, R97). -/
def State.sourceIndex (s : State) (map : Bool) (i : Nat) : Int :=
  if map then remapValue (s.remapAt i) else (i : Int)

/-- The two data conditions of rule R96 for one slot: no reserved entry, and no logical index outside `PIX` when a pixel
buffer is present. -/
def slotLegal (s : State) (map pix : Bool) (i : Nat) : Bool :=
  let e := s.sourceIndex map i
  !(decide (e ≤ -3)) && !(decide (0 ≤ e) && pix && decide ((s.pixlen.toNat : Int) ≤ e))

/-- The checks of rule R96: the session is open and every slot is legal. -/
def State.frameLegal (s : State) (map pix : Bool) : Bool :=
  s.opened && (List.range s.NSLOT).all (slotLegal s map pix)

/-- `RESOLVE(i)` (rule R97). -/
def State.resolve (s : State) (map pix : Bool) (i : Nat) : SlotKind :=
  let e := s.sourceIndex map i
  if e = -2 then .disc
  else if e = -1 then .off
  else if pix then .lit (s.pixAt e.toNat)
  else .off

/-- The corrected values of a slot: through `GAMMA` when lit, zeros otherwise (rule R99). -/
def State.corrected (s : State) (kind : SlotKind) : Rgb :=
  match kind with
  | .lit v =>
    let c := pixelChannels v
    { r := s.gamma.entry 0 c.r, g := s.gamma.entry 1 c.g, b := s.gamma.entry 2 c.b }
  | .off => offRgb
  | .disc => offRgb

/-- `W` of physical slot `i` (rules R97 to R100). -/
def State.slotWord (s : State) (map pix : Bool) (i : Nat) : Word :=
  pack (s.corrected (s.resolve map pix i))

/-- The current of physical slot `i` (rule R105). -/
def State.slotAmps (s : State) (map pix : Bool) (i : Nat) : Num :=
  slotCurrent s.cfg.cal (s.resolve map pix i) (s.corrected (s.resolve map pix i))

/-- `CURA` after the render: every physical slot's current, in the order of rule R33 (rule R105). -/
def renderCura (s : State) (map pix : Bool) : Memory Num :=
  Memory.writeRun curaUnlisted s.cura 0 ((List.range s.NSLOT).map (s.slotAmps map pix))

/-- Phase B of rule R115: the pixel region of `OUT` and all of `CURA`. The two memories are disjoint, so they are rendered
one after the other. -/
def State.renderFrame (s : State) (map pix : Bool) : State :=
  { s with
    out := renderOut s fun k p => s.slotWord map pix (slotIndex s.P k p)
    cura := renderCura s map pix }

/-- The last phase of ENCODE: the result of the transport write (rule R115 phase E); a stop stays a stop. -/
def finishEncode (o : Host.Outcome State Fault Refusal) : Host.Outcome State Fault Refusal :=
  match o with
  | .next t => .next (t.done (txStatus t.env.txOk))
  | .fault f => .fault f
  | .refused r => .refused r

/-- `ENCODE pix, map, st` (rule R115): phase A checks, phase B render, phase C transmit, phase D statistics, phase E
result. -/
def execEncode (st map pix : Bool) (s : State) : Host.Outcome State Fault Refusal :=
  if s.frameLegal map pix then
    let t := (s.renderFrame map pix).transmit
    finishEncode (if st then t.statPhase else .next t)
  else .next (s.raise .invalidParameter)

end Sys2Proof.Machine
end

