-- ==== Sys2Proof/Machine/Power.lean ====
section
/-! DEFINITION. The exact real power of rule R74, without real numbers: `ROUND(d · (i/255)^g)` for a rational exponent
`g = a/b` is found by comparing the half-integers `(2v−1)/2` with `d · (i/255)^(a/b)`, that is `((2v−1)/(2d))^b` with
`(i/255)^a`. Each comparison is decided by enclosures of the two logarithms, and by the integers themselves should no
enclosure decide it, so the answer is the exact one for every exponent. DEDUCED, log 7. -/

namespace Sys2Proof.Machine

/-- Lower enclosure: from `2^e · y / 2^N ≤ x` to a number `L` with `2^L ≤ x^(2^n)`, by `n` squarings rounded down. -/
def powLog2Lo (N : Nat) : Nat → Nat → Nat → Nat
  | 0, e, y => if 2 ^ N ≤ y then e else 0
  | n + 1, e, y =>
    let y2 := y * y / 2 ^ N
    let k := Nat.log2 y2 - N
    powLog2Lo N n (2 * e + k) (y2 / 2 ^ k)

/-- Upper enclosure: from `x ≤ 2^e · y / 2^N` to a number `U` with `x^(2^n) ≤ 2^U`, by `n` squarings rounded up. -/
def powLog2Hi (N : Nat) : Nat → Nat → Nat → Nat
  | 0, e, y => e + (Nat.log2 y + 1) - N
  | n + 1, e, y =>
    let y2 := y * y / 2 ^ N + 1
    let k := Nat.log2 y2 - N
    powLog2Hi N n (2 * e + k) (y2 / 2 ^ k + 1)

/-- `L` with `2^L ≤ (u/w)^(2^n)`. -/
def ratioLog2Lo (n u w : Nat) : Nat := powLog2Lo (n + 16) n 0 (u * 2 ^ (n + 16) / w)

/-- `U` with `(u/w)^(2^n) ≤ 2^U`. -/
def ratioLog2Hi (n u w : Nat) : Nat := powLog2Hi (n + 16) n 0 (u * 2 ^ (n + 16) / w + 1)

/-- Try to decide `p/q` against `(i/255)^(a/b)` with `n` bits of the logarithms: `some true` when it lies below. -/
def belowPowAt (n a b p q i : Nat) : Option Bool :=
  if a * ratioLog2Hi n 255 i < b * ratioLog2Lo n q p then some true
  else if b * ratioLog2Hi n q p < a * ratioLog2Lo n 255 i then some false
  else none

/-- The comparison in integers: `p/q < (i/255)^(a/b)`, or `≤` when not `strict`. -/
def belowPowExact (strict : Bool) (a b p q i : Nat) : Bool :=
  if strict then decide (p ^ b * 255 ^ a < i ^ a * q ^ b) else decide (p ^ b * 255 ^ a ≤ i ^ a * q ^ b)

/-- `p/q < (i/255)^(a/b)`, or `≤` when not `strict`, for `0 < p < q`, `i ≤ 255` and `0 < a, b`. -/
def belowPow (strict : Bool) (a b p q i : Nat) : Bool :=
  if i = 0 then false
  else if i = 255 then true
  else ((belowPowAt 12 a b p q i).orElse fun _ =>
    (belowPowAt 48 a b p q i).orElse fun _ => belowPowAt 200 a b p q i).getD (belowPowExact strict a b p q i)

/-- The greatest `v ≤ d`, built bit by bit from the top, for which `holds v` (0 if none). -/
def greatestBelow (holds : Nat → Bool) (d : Nat) : Nat → Nat → Nat
  | 0, v => v
  | k + 1, v =>
    if decide (v + 2 ^ k ≤ d) && holds (v + 2 ^ k) then greatestBelow holds d k (v + 2 ^ k)
    else greatestBelow holds d k v

/-- `floor(1/2 + d · (i/255)^g)`, or `ceil(d · (i/255)^g − 1/2)` when `strict`, for `d, i ≤ 255` and `g > 0`. -/
def scaledPow (strict : Bool) (d i : Nat) (g : Num) : Nat :=
  greatestBelow (fun v => belowPow strict g.num.toNat g.den (2 * v - 1) (2 * d) i) d 8 0

end Sys2Proof.Machine
end

