-- ==== Sys2Proof/Machine/Gamma.lean ====
section
/-! DEFINITION. The Gamma Engine: GAMMA_SIMPLE, GAMMA_RANGE, GAMMA_OFF (rules R70 to R77). Each replaces all 768 entries
or none (rules R47, R70). -/

namespace Sys2Proof.Machine

/-- Replace the whole table (rule R47). -/
def State.setGamma (s : State) (g : GammaTable) : State := { s with gamma := g }

/-- One entry of GAMMA_SIMPLE: `ROUND(255 · POW(i/255, g))` (rules R71, R74). -/
def simpleEntry (g : Num) (i : Fin 256) : Byte := BitVec.ofNat 8 (scaledPow false 255 i.val g)

/-- One entry of GAMMA_RANGE: `min + floor(1/2 + (max − min) · POW(i/255, g))`, the signed difference and the floor
toward −∞ (rule R72). For `max < min` the floor of `1/2 − d·x` is minus the ceiling of `d·x − 1/2`. -/
def rangeEntry (mn mx : Byte) (g : Num) (i : Fin 256) : Byte :=
  if mn ≤ mx then BitVec.ofNat 8 (mn.toNat + scaledPow false (mx.toNat - mn.toNat) i.val g)
  else BitVec.ofNat 8 (mn.toNat - scaledPow true (mn.toNat - mx.toNat) i.val g)

/-- The table of GAMMA_SIMPLE: the same curve on all three channels (rule R71). -/
def simpleTable (g : Num) : GammaTable := GammaTable.tabulate fun _ i => simpleEntry g i

/-- The table of GAMMA_RANGE: one curve per channel (rule R72). -/
def rangeTable (r : BitVec 48) (farg : Vector (BitVec 64) 3) : GammaTable :=
  GammaTable.tabulate fun c i => rangeEntry (rangeMin r c) (rangeMax r c) (fargValue (farg.get c)) i

/-- The identity table (rule R73). -/
def identityTable : GammaTable := GammaTable.tabulate fun _ i => BitVec.ofFin i

/-- `GAMMA_SIMPLE` (rule R71). -/
def execGammaSimple (s : State) : Host.Outcome State Fault Refusal :=
  .next (if fargLegal (s.farg.get 0) then (s.setGamma (simpleTable (fargValue (s.farg.get 0)))).done .ok
    else s.raise .invalidParameter)

/-- All three exponents are legal, channel 0 first (rules R72, R76, R160). -/
def rangeExponentsLegal (farg : Vector (BitVec 64) 3) : Bool :=
  fargLegal (farg.get 0) && fargLegal (farg.get 1) && fargLegal (farg.get 2)

/-- `GAMMA_RANGE` (rule R72). -/
def execGammaRange (s : State) : Host.Outcome State Fault Refusal :=
  .next (if rangeExponentsLegal s.farg then (s.setGamma (rangeTable s.range s.farg)).done .ok
    else s.raise .invalidParameter)

/-- `GAMMA_OFF` (rule R73). -/
def execGammaOff (s : State) : Host.Outcome State Fault Refusal :=
  .next ((s.setGamma identityTable).done .ok)

end Sys2Proof.Machine
end

