-- ==== Sys2Proof/Machine/Pin.lean ====
section
/-! DEFINITION. Strand and pin configuration: SET_PIN (rules R90 to R93). -/

namespace Sys2Proof.Machine

/-- `PINMAP[k] <- mask`. -/
def State.setPin (s : State) (k : Strand) (mask : Byte) : State :=
  { s with pinmap := s.pinmap.set k.val mask }

/-- The effect of a legal SET_PIN: the entry, and the trailer again when the clock entry changes while Open (rules R90,
R91). -/
def State.assignPin (s : State) (k : Strand) (mask : Byte) : State :=
  if k = 7 ∧ s.opened then (s.setPin k mask).latch else s.setPin k mask

/-- `SET_PIN idx, mask`: the index is checked first, then the mask (rules R90, R160). -/
def execSetPin (idx : Nat) (mask : Byte) (s : State) : Host.Outcome State Fault Refusal :=
  .next (if h : idx < 8 then
      if mask = 0 then s.raise .invalidParameter
      else (s.assignPin ⟨idx, h⟩ mask).done .ok
    else s.raise .invalidParameter)

end Sys2Proof.Machine
end

