-- ==== Sys2Proof/Machine/Session.lean ====
section
/-! DEFINITION. Session lifecycle: OPEN and CLOSE (rules R140 to R152). -/

namespace Sys2Proof.Machine

/-- The operand checks of OPEN in their order; `none` when all five pass (rule R140). -/
def openCheck (s : State) (hw : Bool) (n ppix : Nat) : Option Status :=
  if s.opened then some .invalidParameter
  else if n = 0 ∨ 8 < n then some .invalidParameter
  else if hw = false ∧ n = 8 then some .invalidParameter
  else if ppix = 0 then some .invalidParameter
  else if s.cfg.pMax < ppix then some .allocationFailure
  else none

/-- Set the session registers and create the buffers: `OUT` with no byte written yet, `CURA` without values (rule R142). -/
def State.allocate (s : State) (hw : Bool) (n ppix : Nat) : State :=
  { s with S := Fin.ofNat 9 n, P := ppix, HW := hw, out := [], cura := [] }

/-- `UNWIND()`, and the whole effect of CLOSE on an open block: buffers destroyed, session registers empty (rules R146,
R149). -/
def State.unwind (s : State) : State :=
  { s with out := [], cura := [], S := 0, P := 0, HW := false, opened := false }

/-- The last steps of OPEN: the default curve, the Open state, the result (rules R142, R145, R147). -/
def State.finishOpen (s : State) : State :=
  { s with gamma := s.cfg.gammaDefault, opened := true }.done s.env.warn.status

/-- The steps of OPEN after its checks, on the allocated session: the transport, the renders, the all-off frame
(rule R142). -/
def State.openSequence (s : State) : State :=
  match s.env.openOutcome with
  | .deviceOpenFailure => s.unwind.raise .deviceOpenFailure
  | .bitModeFailure => s.unwind.raise .bitModeFailure
  | .transmitFailure => s.latch.renderAllOff.transmit.unwind.raise .transmitFailure
  | .good => s.latch.renderAllOff.transmit.finishOpen

/-- `OPEN n, ppix, hw` (rule R142). -/
def execOpen (hw : Bool) (n ppix : Nat) (s : State) : Host.Outcome State Fault Refusal :=
  .next (match openCheck s hw n ppix with
    | some k => s.raise k
    | none => (s.allocate hw n ppix).openSequence)

/-- `CLOSE` (rules R149, R150). -/
def execClose (s : State) : Host.Outcome State Fault Refusal :=
  .next ((if s.opened then s.unwind else s).done .ok)

end Sys2Proof.Machine
end

