-- ==== Sys2Proof/Machine/Dispatch.lean ====
section
/-! DEFINITION. The meaning of every instruction: one arm per constructor, one definition per arm. -/

namespace Sys2Proof.Machine

def exec (i : Instr) (s : State) : Host.Outcome State Fault Refusal :=
  match i with
  | .openSession hw n ppix => Sys2Proof.Machine.execOpen hw n ppix s
  | .closeSession => Sys2Proof.Machine.execClose s
  | .gammaSimple => Sys2Proof.Machine.execGammaSimple s
  | .gammaRange => Sys2Proof.Machine.execGammaRange s
  | .gammaOff => Sys2Proof.Machine.execGammaOff s
  | .setPin idx mask => Sys2Proof.Machine.execSetPin idx mask s
  | .encodeFrame st map pix => Sys2Proof.Machine.execEncode st map pix s

end Sys2Proof.Machine
end

