-- ==== Sys2Proof/Machine/HostPort.lean ====
section
/-! DEFINITION. The host port: what each action of the host does (rules R8, R16, R59, R62). -/

namespace Sys2Proof.Machine

/-- The state in which the operation of command word `w` runs: `CW` holds the word, the draws that answer it are in place
(rules R16, R44). -/
def State.accept (s : State) (w : Word) (env : Env) : State := { s with cw := w, env := env }

/-- Write `CW`: run the operation the word encodes; an illegal word changes nothing but `STATUS` (rules R59, R62). -/
def issueCommand (w : Word) (env : Env) (s : State) : Host.Outcome State Fault Refusal :=
  match decode w with
  | .ok i => exec i (s.accept w env)
  | .error _ => .next ((s.accept w env).raise .invalidParameter)

/-- A host's read: the state stays as it is (rule R39), or the read stops the run when there is nothing to read. -/
def hostRead {α : Type} (r : Except Fault α) (s : State) : Host.Outcome State Fault Refusal :=
  match r with
  | .ok _ => .next s
  | .error f => .fault f

/-- One action of the host. -/
def hostAct (a : HostAction) (s : State) : Host.Outcome State Fault Refusal :=
  match a with
  | .command w env => issueCommand w env s
  | .writeFarg c v => .next { s with farg := s.farg.set c.val v }
  | .writeRange v => .next { s with range := v }
  | .writePixlen n => .next { s with pixlen := n }
  | .writePix e c => .next { s with pix := Memory.write pixUnlisted s.pix e (containerPixel c) }
  | .writeRemap i v => .next { s with remap := Memory.write remapUnlisted s.remap i v }
  | .writeStats r => .next { s with stats := r }
  | .readOut a => hostRead (s.outAt a) s
  | .readCura i => hostRead (s.curaAt i) s
  | .readStatus => hostRead (.ok s.status) s
  | .readStats => hostRead (.ok s.stats) s

/-- The host's next action, taken off the list; with none left the block waits (rule R176). -/
def hostStep (s : State) : Host.Outcome State Fault Refusal :=
  match s.pending with
  | [] => .next s
  | a :: rest => hostAct a { s with pending := rest }

end Sys2Proof.Machine
end

