-- ==== Sys2Proof/Machine/Reference.lean ====
section
/-! DEFINITION. The render phase of rule R115 as its pseudocode writes it, byte by byte and in its loop order, over the
memories `OUT` and `CURA`. The machine runs `State.renderFrame`; that both leave the same memories is a statement. -/

namespace Sys2Proof.Machine

/-- `CLEAR(q)` of rule R101, one `MemWrite` at a time. -/
def refClear (hw : Bool) (clk : Byte) (out : Memory Byte) (q : Nat) : Memory Byte :=
  (List.range 32).foldl (fun o j =>
    if hw then Memory.write outUnlisted o (32 * q + j) 0
    else Memory.write outUnlisted (Memory.write outUnlisted o (64 * q + 2 * j) 0) (64 * q + 2 * j + 1) clk) out

/-- `OUT[a] <- OUT[a] | m` (rules R39, R102). -/
def refOr (out : Memory Byte) (a : Nat) (m : Byte) : Memory Byte :=
  Memory.write outUnlisted out a (outByte out a ||| m)

/-- `TRANSPOSE(s, p, W)` of rule R102, with the strand's mask `m`. -/
def refTranspose (hw : Bool) (m : Byte) (p : Nat) (w : Word) (out : Memory Byte) : Memory Byte :=
  (List.range 32).foldl (fun o j =>
    if w.getLsbD (31 - j) then
      if hw then refOr o (32 * p + j) m
      else refOr (refOr o (64 * p + 2 * j) m) (64 * p + 2 * j + 1) m
    else o) out

/-- The loop body of rule R115 phase B for slot `(k, p)`: resolve, correct, pack, transpose, and the current. -/
def refSlot (s : State) (map pix : Bool) (mem : Memory Byte × Memory Num) (kp : Strand × Nat) :
    Memory Byte × Memory Num :=
  let i := kp.1.val * s.P + kp.2
  (refTranspose s.HW (s.pin kp.1) kp.2 (s.slotWord map pix i) mem.1,
   Memory.write curaUnlisted mem.2 i (s.slotAmps map pix i))

/-- Phase B of rule R115: `for q: CLEAR(q)`, then `for s: for p:` the loop body. The inputs `PIX`, `REMAP`, `GAMMA`,
`PINMAP`, `CAL` are not written by it, so they are read from the state before. -/
def refRender (s : State) (map pix : Bool) : Memory Byte × Memory Num :=
  (slotOrder s.S s.P).foldl (refSlot s map pix) ((List.range s.P).foldl (refClear s.HW s.CLK) s.out, s.cura)

end Sys2Proof.Machine
end

