-- ==== Sys2Proof/Safety.lean ====
section
/-! DEFINITION. The terms in which claims are stated: the invariant of the block (rule R24), the closed forms of the
waveform (rules R103, R143), the numbers the operand patterns stand for (rule R58), and the premises of the decoder of rule
R108. -/

namespace Sys2Proof.Machine

/-- Byte `k` of the latch trailer: 0, or with the software clock `0, CLK` alternating (rules R24 item 4, R143). -/
def latchByte (hw : Bool) (clk : Byte) (k : Nat) : Byte := if hw then 0 else if k % 2 = 0 then 0 else clk

/-- `d(p, b)` of rule R103: the OR of the masks of the rendered strands whose word has bit `b` set at position `p`. -/
def dataBits (s : State) (word : Strand → Nat → Word) (p b : Nat) : Byte :=
  (strandsBelow s.S).foldl (fun acc k => acc ||| if (word k p).getLsbD b then s.pin k else 0) 0

/-- The closed form of rule R103 at byte `a` of the pixel region. -/
def regionByte (s : State) (word : Strand → Nat → Word) (a : Nat) : Byte :=
  if s.HW then dataBits s word (a / 32) (31 - a % 32)
  else if a % 2 = 0 then dataBits s word (a / 64) (31 - a % 64 / 2)
  else s.CLK ||| dataBits s word (a / 64) (31 - a % 64 / 2)

/-- The OR of all rendered strands' masks (rule R110). -/
def allMasks (s : State) : Byte := (strandsBelow s.S).foldl (fun acc k => acc ||| s.pin k) 0

/-- Byte `a` of the pixel region of an all-off frame: the control positions carry all masks, the rest no data bit (rule
R110). -/
def allOffByte (hw : Bool) (clk masks : Byte) (a : Nat) : Byte :=
  latchByte hw clk (a % bps hw) ||| if a % bps hw < bps hw / 4 then masks else 0

/-- The frame OPEN hands to the transport: `OUT` of an all-off frame of `ppix` slots, trailer included (rules R142 to R144).
`masks` is the OR of the rendered strands' masks. -/
def openFrame (hw : Bool) (ppix : Nat) (clk masks : Byte) : List Byte :=
  (List.range ((ppix + 1) * bps hw)).map fun a =>
    if a < ppix * bps hw then allOffByte hw clk masks a else latchByte hw clk (a - ppix * bps hw)

/-- The checks of rule R96 pass: the session is open, no entry is reserved, and with a pixel buffer every logical index lies
in it. -/
def State.FrameOk (s : State) (map pix : Bool) : Prop :=
  s.opened = true ∧ ∀ i < s.S.val * s.P,
    -2 ≤ s.sourceIndex map i ∧ (pix = true → 0 ≤ s.sourceIndex map i → s.sourceIndex map i < s.pixlen.toNat)

/-- Checks 2 to 5 of OPEN pass (rule R140). -/
def State.OpenOk (s : State) (hw : Bool) (n ppix : Nat) : Prop :=
  1 ≤ n ∧ n ≤ 8 ∧ (hw = false → n ≤ 7) ∧ 1 ≤ ppix ∧ ppix ≤ s.cfg.pMax

/-- What holds of the session state: empty while Closed, within its bounds while Open, with the trailer as LATCH renders it
from the clock mask of the moment (rules R11, R24 items 2, 4 and 6, R140). -/
structure State.SessionInv (s : State) : Prop where
  closed : s.opened = false → s.S = 0 ∧ s.P = 0 ∧ s.HW = false ∧ s.out = [] ∧ s.cura = []
  strands : s.opened = true → 1 ≤ s.S.val ∧ (s.HW = false → s.S.val ≤ 7)
  pixels : s.opened = true → 1 ≤ s.P ∧ s.P ≤ s.cfg.pMax
  outLen : ∀ c ∈ s.out, c.1 < s.L
  curaLen : ∀ c ∈ s.cura, c.1 < s.NSLOT
  trailer : s.opened = true → ∀ k < s.BPS, outByte s.out (s.P * s.BPS + k) = latchByte s.HW s.CLK k

/-- The invariant of the block (rule R24): legal parameters, no zero mask, canonical memories, a sound session. -/
structure State.Inv (s : State) : Prop where
  config : s.cfg.Legal
  pins : ∀ k : Strand, s.pin k ≠ 0
  memories : s.memWf = true
  session : s.SessionInv

/-- The value of a finite binary64 pattern, as rule R58 writes it. -/
def binary64Value (v : BitVec 64) : Num :=
  (if fargSign v then -1 else 1) *
    (if fargBiased v = 0 then (fargFraction v / 2 ^ 52) * (2 : Num) ^ (-1022 : Int)
     else (1 + fargFraction v / 2 ^ 52) * (2 : Num) ^ ((fargBiased v : Int) - 1023))

/-- The mask of strand `k` shares no bit with another rendered strand's mask, and none with the clock mask in
software-clock mode (the condition of rule R108). -/
def State.maskAlone (s : State) (k : Strand) : Prop :=
  (∀ j : Strand, j.val < s.S.val → j ≠ k → s.pin k &&& s.pin j = 0) ∧ (s.HW = false → s.pin k &&& s.CLK = 0)

/-- The sum of the currents of all physical slots of a frame (rule R131). -/
def State.frameAmps (s : State) (map pix : Bool) : Num := ((List.range s.NSLOT).map (s.slotAmps map pix)).sum

end Sys2Proof.Machine
end

