-- ==== Sys2Proof/Certificates/Slice0/Obligations.lean ====
section
/-! DEFINITION. The statements for the provers, family by family: each formalises rules of `spec/` as its docstring says. -/

open Sys2Proof Sys2Proof.Machine

/-! ### The command word -/

/-- Decoding the encoding of a well-formed instruction gives it back, at every operand value (rules R59 to R61). -/
def Obligations.DecodeOfEncodeIsTheInstruction : Prop :=
  ∀ i : Instr, i.wellFormed = true → decode (encode i) = .ok i

/-- A word that decodes is the encoding of the well-formed instruction it decodes to (rules R59 to R62). -/
def Obligations.EncodeOfDecodeIsTheWord : Prop :=
  ∀ (w : Word) (i : Instr), decode w = .ok i → i.wellFormed = true ∧ encode i = w

/-- The decoder is the match and mask table of rule R61: a legal word is selected by exactly one row, the row of its
instruction; a word is illegal exactly when no row selects it (rule R62). -/
def Obligations.DecoderIsTheOpcodeTable : Prop :=
  ∀ w : Word,
    (∀ i, decode w = .ok i → ∃ r ∈ opcodeRows, r.op = i.op ∧ r.selects w = true ∧
      ∀ r' ∈ opcodeRows, r'.selects w = true → r' = r) ∧
    ((∃ e, decode w = .error e) ↔ ∀ r ∈ opcodeRows, r.selects w = false)

/-- A few command words of the tables T-D1 and T-D2 and of T-E8 and T-ST1, decoded; ENCODE with each of its presence bits
alone. -/
def Obligations.ListedWordsDecode : Prop :=
  decode 0x10010019 = .ok (.openSession false 1 25) ∧ decode 0x11020001 = .ok (.openSession true 2 1) ∧
  decode 0x20000000 = .ok .closeSession ∧ decode 0x30000000 = .ok .gammaSimple ∧
  decode 0x40000000 = .ok .gammaRange ∧ decode 0x50000000 = .ok .gammaOff ∧
  decode 0x60000214 = .ok (.setPin 2 0x14) ∧ decode 0x70000005 = .ok (.encodeFrame true false true) ∧
  decode 0x70000001 = .ok (.encodeFrame false false true) ∧ decode 0x70000002 = .ok (.encodeFrame false true false) ∧
  decode 0x70000004 = .ok (.encodeFrame true false false) ∧
  decode 0x00000000 = .error (.reservedOpcode 0) ∧ decode 0x12010019 = .error (.mustBeZero 1) ∧
  decode 0x70000008 = .error (.mustBeZero 7)

/-- An illegal command word changes no state except `STATUS` (rule R62); the host's own write of `CW`, the draws that came
with it and the host's list are as the host left them. -/
def Obligations.IllegalWordOnlySetsStatus : Prop :=
  ∀ (s : State) (w : Word) (env : Env) (rest : List HostAction),
    s.pending = .command w env :: rest → (∃ e, decode w = .error e) →
    step s = .next { s with pending := rest, cw := w, env := env, status := .invalidParameter }

/-- When the host's next action is a command word that decodes to `i`, the step is `exec i`, on the state in which `CW` holds
the word, the draws that answer it are in place and the action is taken off the host's list (rules R8, R59; logs 5, 6). The
same for a word placed by `withFetchWord`. -/
def Obligations.StepRunsTheDecodedInstruction : Prop :=
  ∀ (s : State) (w : Word) (env : Env) (rest : List HostAction) (i : Instr),
    decode w = .ok i →
    (s.pending = .command w env :: rest → step s = exec i { s with pending := rest, cw := w, env := env }) ∧
    step (s.withFetchWord 32 w.toNat) = exec i { s with cw := w }

/-! ### The host between operations, reset -/

/-- With no action of the host left the block waits; the host's writes of the operand registers and of `STATS` store what
is written and nothing else (rules R16, R22, R176; log 5). -/
def Obligations.HostWritesOfRegisters : Prop :=
  ∀ (s : State) (rest : List HostAction),
    (s.pending = [] → step s = .next s) ∧
    (∀ c v, s.pending = .writeFarg c v :: rest →
      step s = .next { s with pending := rest, farg := s.farg.set c.val v }) ∧
    (∀ v, s.pending = .writeRange v :: rest → step s = .next { s with pending := rest, range := v }) ∧
    (∀ n, s.pending = .writePixlen n :: rest → step s = .next { s with pending := rest, pixlen := n }) ∧
    (∀ r, s.pending = .writeStats r :: rest → step s = .next { s with pending := rest, stats := r })

/-- The host's write of a `PIX` or `REMAP` element is read back there, the top byte of a pixel container ignored, and every
other element reads as before (rules R21, R31, R32). The host's actions are the model's own field (log 5); that an element
the host never wrote reads the same before and after is the model's choice: log 3. -/
def Obligations.HostWritesOfMemories : Prop :=
  ∀ (s : State) (rest : List HostAction) (e : Nat) (v : Word),
    (s.pending = .writePix e v :: rest →
      ∃ t, step s = .next t ∧ t = { s with pending := rest, pix := t.pix } ∧
        ∀ a, t.pixAt a = if a = e then v.setWidth 24 else s.pixAt a) ∧
    (s.pending = .writeRemap e v :: rest →
      ∃ t, step s = .next t ∧ t = { s with pending := rest, remap := t.remap } ∧
        ∀ a, t.remapAt a = if a = e then v else s.remapAt a)

/-- A host's read changes nothing where the element exists and holds a value, and faults elsewhere: `OUT` and `CURA` exist
only while Open, and a `CURA` element may hold no value (rules R8, R19, R20, R39; U8). `STATUS` and `STATS` can always be
read. That such a read stops the run is the
model's choice: log 9. -/
def Obligations.HostReadsNeedAnElement : Prop :=
  ∀ (s : State) (rest : List HostAction) (a : Nat),
    (s.pending = .readOut a :: rest →
      (s.opened = true ∧ a < s.L → step s = .next { s with pending := rest }) ∧
      (¬ (s.opened = true ∧ a < s.L) → step s = .fault (.outAbsent a))) ∧
    (s.pending = .readCura a :: rest →
      (s.opened = true ∧ a < s.NSLOT → s.cura.find a ≠ none → step s = .next { s with pending := rest }) ∧
      (s.opened = true ∧ a < s.NSLOT → s.cura.find a = none → step s = .fault (.curaNoValue a)) ∧
      (¬ (s.opened = true ∧ a < s.NSLOT) → step s = .fault (.curaAbsent a))) ∧
    (s.pending = .readStatus :: rest → step s = .next { s with pending := rest }) ∧
    (s.pending = .readStats :: rest → step s = .next { s with pending := rest })

/-- What reset leaves of the elements the spec gives a reset value, for an instance with any parameters (rules R26, R175). -/
def Obligations.ResetValues : Prop :=
  ∀ c : Config, let s := State.resetOf c
    s.opened = false ∧ s.S = 0 ∧ s.P = 0 ∧ s.HW = false ∧ s.status = .ok ∧ s.cw = 0 ∧ (∀ k, s.farg.get k = 0) ∧
    s.range = 0 ∧ s.pixlen = 0 ∧ (∀ k, s.pin k = c.pinDefault.get k) ∧ s.cfg.cal = c.cal ∧
    (∀ a, s.outAt a = .error (.outAbsent a)) ∧ (∀ i, s.curaAt i = .error (.curaAbsent i))

/-- The invariant holds after reset of every instance with legal parameters, and of `State.reset` (rules R24, R26). -/
def Obligations.ResetSatisfiesTheInvariant : Prop :=
  (∀ c : Config, c.Legal → (State.resetOf c).Inv) ∧ State.reset.Inv

/-! ### The whole machine -/

/-- Every step keeps the invariant: no zero mask, canonical memories within their bounds, the session empty while Closed
and within its limits while Open, and a trailer of zeros, or of zeros and the clock mask of the moment (rule R24). -/
def Obligations.StepKeepsTheInvariant : Prop :=
  ∀ s t : State, s.Inv → step s = .next t → t.Inv

/-- Each state element is written only by the operations rule R10 names; the host's registers and memories, the parameters
and the draws by none (rules R10, R16, R18, R21). -/
def Obligations.EachElementHasItsWriters : Prop :=
  ∀ (i : Instr) (s t : State), exec i s = .next t →
    (t.cw = s.cw ∧ t.farg = s.farg ∧ t.range = s.range ∧ t.pixlen = s.pixlen ∧ t.pix = s.pix ∧ t.remap = s.remap ∧
      t.cfg = s.cfg ∧ t.env = s.env ∧ t.pending = s.pending) ∧
    (¬ (t.opened = s.opened ∧ t.S = s.S ∧ t.P = s.P ∧ t.HW = s.HW) →
      (∃ hw n ppix, i = .openSession hw n ppix) ∨ i = .closeSession) ∧
    (t.pinmap ≠ s.pinmap → ∃ idx mask, i = .setPin idx mask) ∧
    (t.gamma ≠ s.gamma →
      i = .gammaSimple ∨ i = .gammaRange ∨ i = .gammaOff ∨ ∃ hw n ppix, i = .openSession hw n ppix) ∧
    (t.out ≠ s.out → (∃ hw n ppix, i = .openSession hw n ppix) ∨ i = .closeSession ∨
      (∃ mask, i = .setPin 7 mask) ∨ ∃ st map pix, i = .encodeFrame st map pix) ∧
    (t.cura ≠ s.cura → (∃ hw n ppix, i = .openSession hw n ppix) ∨ i = .closeSession ∨
      ∃ st map pix, i = .encodeFrame st map pix) ∧
    (t.stats ≠ s.stats → ∃ map pix, i = .encodeFrame true map pix) ∧
    (t.handed ≠ s.handed → (∃ hw n ppix, i = .openSession hw n ppix) ∨ ∃ st map pix, i = .encodeFrame st map pix)

/-- No operation changes `S`, `P` or `HW` while `OPENED` stays true (rule R11). -/
def Obligations.SessionIsImmutableWhileOpen : Prop :=
  ∀ (i : Instr) (s t : State), exec i s = .next t → s.opened = true → t.opened = true →
    t.S = s.S ∧ t.P = s.P ∧ t.HW = s.HW

/-- Every operation writes `STATUS` and none reads it: what it held before makes no difference to the outcome (rule R15). -/
def Obligations.StatusIsWrittenAndNeverRead : Prop :=
  ∀ (i : Instr) (s : State) (k : Status), exec i { s with status := k } = exec i s

/-- No operation ever faults: no access leaves its space and the STAT phase meets a value in every element (rules R20, R40,
R118). An operation is refused exactly when it is an ENCODE with statistics that passes its checks while the clock has
stepped backwards since an earlier frame of the record (rule R136, U6; log 11). -/
def Obligations.OnlyABackwardsClockStopsAnOperation : Prop :=
  ∀ (i : Instr) (s : State),
    (∀ f, exec i s ≠ .fault f) ∧
    (∀ r, exec i s = .refused r ↔ r = .clockStepsBack ∧
      ∃ map pix, i = .encodeFrame true map pix ∧ s.FrameOk map pix ∧ 0 < s.stats.frames ∧
        s.env.tNow < s.stats.lastTime)

/-- The result codes and their classes (rule R63). -/
def Obligations.ResultCodes : Prop :=
  Status.ok.code = 0 ∧ Status.invalidParameter.code = 1 ∧ Status.allocationFailure.code = 2 ∧
  Status.deviceOpenFailure.code = 3 ∧ Status.bitModeFailure.code = 4 ∧ Status.transmitFailure.code = 5 ∧
  Status.divisorWarning.code = 6 ∧ Status.baudRateWarning.code = 7 ∧
  ∀ k : Status, (k.isFailure = true ↔ 1 ≤ k.code ∧ k.code ≤ 5) ∧ (k.isWarning = true ↔ 6 ≤ k.code)

/-! ### Gamma -/

/-- GAMMA_SIMPLE (rule R71): its word; with a legal exponent every entry of every channel becomes
`ROUND(255·(i/255)^g)` over the real numbers, `STATUS` is OK and nothing else changes; with an illegal one only `STATUS`
changes. -/
def Obligations.GammaSimpleInstallsTheRealCurve : Prop :=
  decode 0x30000000 = .ok .gammaSimple ∧
  ∀ s : State,
    (fargLegal (s.farg.get 0) = true → ∃ t, exec .gammaSimple s = .next t ∧
      t = { s with gamma := t.gamma, status := .ok } ∧
      ∀ (c : Channel) (i : Byte), ((t.gamma.entry c i).toNat : ℤ) =
        ⌊1 / 2 + (255 : ℝ) * ((i.toNat : ℝ) / 255) ^ (binary64Value (s.farg.get 0) : ℝ)⌋) ∧
    (fargLegal (s.farg.get 0) = false → exec .gammaSimple s = .next { s with status := .invalidParameter })

/-- GAMMA_RANGE (rule R72): its word; with three legal exponents entry `i` of channel `c` becomes
`min[c] + floor(1/2 + (max[c] − min[c])·(i/255)^g[c])`, signed difference and real floor, with `min[c]` and `max[c]` bytes
`2c` and `2c + 1` of `RANGE` (rule R58), `STATUS` is OK and nothing else changes; with any illegal exponent only `STATUS` changes. -/
def Obligations.GammaRangeInstallsTheRealCurves : Prop :=
  decode 0x40000000 = .ok .gammaRange ∧
  ∀ s : State,
    ((∀ c, fargLegal (s.farg.get c) = true) → ∃ t, exec .gammaRange s = .next t ∧
      t = { s with gamma := t.gamma, status := .ok } ∧
      ∀ (c : Channel) (i mn mx : Byte),
        mn = s.range.extractLsb' (16 * c.val) 8 → mx = s.range.extractLsb' (16 * c.val + 8) 8 →
        ((t.gamma.entry c i).toNat : ℤ) = mn.toNat + ⌊1 / 2 + ((mx.toNat : ℝ) - (mn.toNat : ℝ)) *
          ((i.toNat : ℝ) / 255) ^ (binary64Value (s.farg.get c) : ℝ)⌋) ∧
    ((∃ c, fargLegal (s.farg.get c) = false) → exec .gammaRange s = .next { s with status := .invalidParameter })

/-- GAMMA_OFF (rule R73): its word; the identity table on all channels, `STATUS` OK, nothing else changes, in either
session state. -/
def Obligations.GammaOffInstallsTheIdentity : Prop :=
  decode 0x50000000 = .ok .gammaOff ∧
  ∀ s : State, ∃ t, exec .gammaOff s = .next t ∧ t = { s with gamma := t.gamma, status := .ok } ∧
    ∀ (c : Channel) (i : Byte), t.gamma.entry c i = i

/-- The properties of rule R75: (a) a GAMMA_SIMPLE table is non-decreasing from 0 to 255; (b) GAMMA_OFF is the identity on
all channels; (c) GAMMA_SIMPLE 1.0 does what GAMMA_OFF does; (d) the exact forms for the exponents 2 and 1/2. -/
def Obligations.GammaTableProperties : Prop :=
  (∀ s t : State, fargLegal (s.farg.get 0) = true → exec .gammaSimple s = .next t → ∀ c : Channel,
    (∀ i j : Byte, i ≤ j → t.gamma.entry c i ≤ t.gamma.entry c j) ∧ t.gamma.entry c 0 = 0 ∧ t.gamma.entry c 255 = 255) ∧
  (∀ s t : State, exec .gammaOff s = .next t → ∀ (c : Channel) (i : Byte), t.gamma.entry c i = i) ∧
  (∀ s : State, s.farg.get 0 = 0x3FF0000000000000 → exec .gammaSimple s = exec .gammaOff s) ∧
  (∀ s t : State, s.farg.get 0 = 0x4000000000000000 → exec .gammaSimple s = .next t → ∀ (c : Channel) (i : Byte),
    (t.gamma.entry c i).toNat = (2 * i.toNat ^ 2 + 255) / 510) ∧
  (∀ s t : State, s.farg.get 0 = 0x3FE0000000000000 → exec .gammaSimple s = .next t → ∀ c : Channel,
    t.gamma.entry c 0 = 0 ∧ ∀ i : Byte, 1 ≤ i.toNat → 1 ≤ (t.gamma.entry c i).toNat ∧
      (2 * (t.gamma.entry c i).toNat - 1) ^ 2 ≤ 4 * 255 * i.toNat ∧
      4 * 255 * i.toNat < (2 * (t.gamma.entry c i).toNat + 1) ^ 2)

/-- A GAMMA_RANGE channel starts at `min`, ends at `max`, moves in one direction and stays between them, falling when
`max < min` (the corner cases of rule R72); `min` and `max` are the bytes `2c` and `2c + 1` of `RANGE` (rule R58). -/
def Obligations.GammaRangeStaysBetweenItsEnds : Prop :=
  ∀ s t : State, (∀ c, fargLegal (s.farg.get c) = true) → exec .gammaRange s = .next t →
    ∀ (c : Channel) (mn mx : Byte),
    mn = s.range.extractLsb' (16 * c.val) 8 → mx = s.range.extractLsb' (16 * c.val + 8) 8 →
    t.gamma.entry c 0 = mn ∧ t.gamma.entry c 255 = mx ∧
    ∀ i j : Byte, i ≤ j →
      if mn ≤ mx then t.gamma.entry c i ≤ t.gamma.entry c j
      else t.gamma.entry c j ≤ t.gamma.entry c i

/-- With the sign in bit 63, the biased exponent in bits 62:52 and the fraction in bits 51:0, and the value as rule R58
writes it: a legal exponent has sign 0, is no infinity or NaN and no zero, that is, it is finite and greater than zero
(rules R58, R76); `binary64Value`, and for a legal exponent the number the gamma operations use, is that value. -/
def Obligations.LegalExponentsAreFiniteAndPositive : Prop :=
  ∀ (v : BitVec 64) (sign : Bool) (E f : Nat) (x : ℚ),
    sign = v.getLsbD 63 → E = (v.extractLsb' 52 11).toNat → f = (v.extractLsb' 0 52).toNat →
    x = (if sign = true then -1 else 1) *
      (if E = 0 then ((f : ℚ) / 2 ^ 52) * 2 ^ (-1022 : ℤ) else (1 + (f : ℚ) / 2 ^ 52) * 2 ^ ((E : ℤ) - 1023)) →
    (fargLegal v = true ↔ sign = false ∧ E ≠ 2047 ∧ ¬ (E = 0 ∧ f = 0)) ∧
    (fargLegal v = true ↔ E < 2047 ∧ 0 < x) ∧
    binary64Value v = x ∧ (fargLegal v = true → fargValue v = x)

/-! ### Pins -/

/-- SET_PIN (rules R90, R91): its word; an index above 7, or else a zero mask, changes only `STATUS`; a legal one stores the
mask, and only for index 7 while Open also renders the trailer from the new clock mask, every other byte of `OUT` left
as it was. -/
def Obligations.SetPinStoresTheMask : Prop :=
  (∀ (idx : Nat) (mask : Byte), idx < 256 →
    decode (0x60000000 ||| (BitVec.ofNat 32 idx <<< 8) ||| mask.setWidth 32) = .ok (.setPin idx mask)) ∧
  ∀ (s : State) (idx : Nat) (mask : Byte),
    (7 < idx ∨ mask = 0 → exec (.setPin idx mask) s = .next { s with status := .invalidParameter }) ∧
    (∀ k : Strand, k.val = idx → mask ≠ 0 → ∃ t, exec (.setPin idx mask) s = .next t ∧
      t = { s with pinmap := t.pinmap, out := t.out, status := .ok } ∧
      (∀ j : Strand, t.pin j = if j = k then mask else s.pin j) ∧
      (¬ (idx = 7 ∧ s.opened = true) → t.out = s.out) ∧
      (idx = 7 ∧ s.opened = true → ∀ a, outByte t.out a =
        if s.P * s.BPS ≤ a ∧ a < s.L then latchByte s.HW mask (a - s.P * s.BPS) else outByte s.out a))

/-! ### Words and currents -/

/-- The chip word, field by field, and the two forms of its control byte (rules R52, R53). -/
def Obligations.PackedWordLayout : Prop :=
  ∀ v : Rgb,
    (pack v).extractLsb' 0 8 = v.r ∧ (pack v).extractLsb' 8 8 = v.g ∧ (pack v).extractLsb' 16 8 = v.b ∧
    (pack v).extractLsb' 24 8 = ~~~ ((v.b.extractLsb' 6 2).setWidth 8 <<< 4 ||| (v.g.extractLsb' 6 2).setWidth 8 <<< 2
      ||| (v.r.extractLsb' 6 2).setWidth 8) ∧
    (pack v).extractLsb' 30 2 = 0b11#2 ∧ (pack v).extractLsb' 28 2 = ~~~ v.b.extractLsb' 6 2 ∧
    (pack v).extractLsb' 26 2 = ~~~ v.g.extractLsb' 6 2 ∧ (pack v).extractLsb' 24 2 = ~~~ v.r.extractLsb' 6 2

/-- What each physical slot shows and draws (rules R97, R99, R100, R105): the remap entry first, then the missing pixel
buffer, then the pixel through the gamma table; an off or disconnected slot has the off word whatever the table holds. -/
def Obligations.SlotWordAndCurrent : Prop :=
  ∀ (s : State) (map pix : Bool) (i : Nat) (e : Int),
    e = (if map = true then (s.remapAt i).toInt else (i : Int)) →
    (e = -2 → s.slotWord map pix i = 0xFF000000 ∧ s.slotAmps map pix i = 0) ∧
    (e = -1 → s.slotWord map pix i = 0xFF000000 ∧ s.slotAmps map pix i = s.cfg.cal.base) ∧
    (0 ≤ e → pix = false → s.slotWord map pix i = 0xFF000000 ∧ s.slotAmps map pix i = s.cfg.cal.base) ∧
    (0 ≤ e → pix = true → ∀ (v : Pixel) (c : Rgb), v = s.pixAt e.toNat →
      c = { r := s.gamma.entry 0 (v.extractLsb' 16 8), g := s.gamma.entry 1 (v.extractLsb' 8 8),
            b := s.gamma.entry 2 (v.extractLsb' 0 8) } →
      s.slotWord map pix i = pack c ∧ s.slotAmps map pix i = current s.cfg.cal c)

/-- The current formula (rules R81, R82). -/
def Obligations.CurrentFormula : Prop :=
  ∀ (c : Cal) (v : Rgb),
    (∀ (x y : Byte) (k : ℚ), comboFactor x y k = 1 - ((x.toNat : ℚ) * y.toNat / 255 ^ 2) * (1 - k)) ∧
    current c v = c.base + ((v.r.toNat * c.cr + v.g.toNat * c.cg + v.b.toNat * c.cb) / 255) *
      comboFactor v.r v.g c.kRG * comboFactor v.g v.b c.kGB * comboFactor v.r v.b c.kRB

/-- The properties of the current model (rule R84): (a) the baseline, (b) one full channel, (c) and (d) several, with the
bound of (c) and the bounds of (e) for legal constants, (f) the two remap sentinels. -/
def Obligations.CurrentModelProperties : Prop :=
  ∀ c : Cal,
    current c { r := 0, g := 0, b := 0 } = c.base ∧
    current c { r := 255, g := 0, b := 0 } = c.base + c.cr ∧
    current c { r := 0, g := 255, b := 0 } = c.base + c.cg ∧
    current c { r := 0, g := 0, b := 255 } = c.base + c.cb ∧
    current c { r := 255, g := 255, b := 255 } = c.base + (c.cr + c.cg + c.cb) * c.kRG * c.kGB * c.kRB ∧
    current c { r := 255, g := 255, b := 0 } = c.base + (c.cr + c.cg) * c.kRG ∧
    current c { r := 0, g := 255, b := 255 } = c.base + (c.cg + c.cb) * c.kGB ∧
    current c { r := 255, g := 0, b := 255 } = c.base + (c.cr + c.cb) * c.kRB ∧
    (c.Legal → ∀ v : Rgb, c.base ≤ current c v ∧
      current c v ≤ c.base + (v.r.toNat * c.cr + v.g.toNat * c.cg + v.b.toNat * c.cb) / 255) ∧
    (c.Legal → current c { r := 255, g := 255, b := 255 } ≤ c.cr + c.cg + c.cb + c.base) ∧
    ∀ (s : State) (map pix : Bool) (i : Nat), s.cfg.cal = c →
      (s.sourceIndex map i = -2 → s.slotAmps map pix i = 0) ∧ (s.sourceIndex map i = -1 → s.slotAmps map pix i = c.base)

/-! ### OPEN and CLOSE -/

/-- The five operand checks of OPEN in their order; a failing check changes only `STATUS` (rules R140, R148). -/
def Obligations.OpenChecksItsOperands : Prop :=
  ∀ (s : State) (hw : Bool) (n ppix : Nat),
    (s.opened = true ∨ n = 0 ∨ 8 < n ∨ (hw = false ∧ n = 8) ∨ ppix = 0 →
      exec (.openSession hw n ppix) s = .next { s with status := .invalidParameter }) ∧
    (s.opened = false → 1 ≤ n → n ≤ 8 → (hw = false → n ≤ 7) → 1 ≤ ppix → s.cfg.pMax < ppix →
      exec (.openSession hw n ppix) s = .next { s with status := .allocationFailure })

/-- A transport failure of OPEN leaves the block as it was before, but for `STATUS` (rules R141, R146); the transport has
been handed the all-off frame only when its write is what failed (the hand-over is the model's own field: log 8). -/
def Obligations.OpenFailureUnwinds : Prop :=
  ∀ (s : State) (hw : Bool) (n ppix : Nat), s.SessionInv → s.opened = false → s.OpenOk hw n ppix →
    (s.env.openOutcome = .deviceOpenFailure →
      exec (.openSession hw n ppix) s = .next { s with status := .deviceOpenFailure }) ∧
    (s.env.openOutcome = .bitModeFailure →
      exec (.openSession hw n ppix) s = .next { s with status := .bitModeFailure }) ∧
    (s.env.openOutcome = .transmitFailure →
      exec (.openSession hw n ppix) s = .next { s with
        status := .transmitFailure
        handed := openFrame hw ppix s.CLK (allMasks { s with S := Fin.ofNat 9 n }) :: s.handed })

/-- A successful OPEN (rules R142 to R145, R147): the session registers from the operands, the default curve, the all-off
frame in the pixel region, the trailer after it, `CURA` without values, the whole of `OUT` handed to the transport in one
write (log 8), OK in `STATUS`, or the warning the transport reports, each as itself (rule R147), and nothing else changed. -/
def Obligations.OpenCreatesASession : Prop :=
  ∀ (s : State) (hw : Bool) (n ppix : Nat), s.opened = false → s.OpenOk hw n ppix → s.env.openOutcome = .good →
    ∃ t, exec (.openSession hw n ppix) s = .next t ∧
      t = { s with opened := true, S := t.S, P := ppix, HW := hw, gamma := s.cfg.gammaDefault, out := t.out,
                   cura := t.cura, status := t.status, handed := t.handed } ∧
      (s.env.warn = .none → t.status = .ok) ∧ (s.env.warn = .divisorWarning → t.status = .divisorWarning) ∧
      (s.env.warn = .baudRateWarning → t.status = .baudRateWarning) ∧
      t.S.val = n ∧ t.L = (ppix + 1) * (if hw then 32 else 64) ∧
      (∀ a < ppix * bps hw, outByte t.out a = allOffByte hw t.CLK (allMasks t) a) ∧
      (∀ k < bps hw, outByte t.out (ppix * bps hw + k) = latchByte hw t.CLK k) ∧
      (∀ i, t.cura.find i = none) ∧
      t.handed = (List.range t.L).map (outByte t.out) :: s.handed ∧
      t.handed = openFrame hw ppix s.CLK (allMasks t) :: s.handed

/-- After a successful OPEN a host's read of any `CURA` element finds no value (rules R20, R183; U8). -/
def Obligations.CuraHasNoValuesAfterOpen : Prop :=
  ∀ (s t : State) (hw : Bool) (n ppix i : Nat) (rest : List HostAction),
    s.opened = false → s.OpenOk hw n ppix → s.env.openOutcome = .good →
    exec (.openSession hw n ppix) s = .next t → i < n * ppix →
    step { t with pending := .readCura i :: rest } = .fault (.curaNoValue i)

/-- A gamma table set before OPEN is lost: what `GAMMA` held makes no difference to a successful OPEN; a failed OPEN does not
overwrite it (rule R179). -/
def Obligations.OpenForgetsTheGammaTable : Prop :=
  ∀ (s t : State) (g : GammaTable) (hw : Bool) (n ppix : Nat), exec (.openSession hw n ppix) s = .next t →
    (t.status.isFailure = true → t.gamma = s.gamma ∧
      exec (.openSession hw n ppix) { s with gamma := g } = .next { t with gamma := g }) ∧
    (t.status.isFailure = false → t.gamma = s.cfg.gammaDefault ∧
      exec (.openSession hw n ppix) { s with gamma := g } = .next t)

/-- The legacy raw strand count (rules R57, R65): from a Closed block with everything else in order, raw 1..7 open a
software-clock session of that many strands, raw 9..16 a hardware-clock session of eight fewer, and 0, 8 and anything above
16 give InvalidParameter. -/
def Obligations.RawStrandCount : Prop :=
  ∀ (s : State) (nRaw ppix : Nat), s.opened = false → 1 ≤ ppix → ppix ≤ s.cfg.pMax → s.env.openOutcome = .good →
    (1 ≤ nRaw → nRaw ≤ 7 → ∃ t, exec (openRaw nRaw ppix) s = .next t ∧
      (s.env.warn = .none → t.status = .ok) ∧ (s.env.warn = .divisorWarning → t.status = .divisorWarning) ∧
      (s.env.warn = .baudRateWarning → t.status = .baudRateWarning) ∧
      t.opened = true ∧ t.HW = false ∧ t.S.val = nRaw) ∧
    (9 ≤ nRaw → nRaw ≤ 16 → ∃ t, exec (openRaw nRaw ppix) s = .next t ∧
      (s.env.warn = .none → t.status = .ok) ∧ (s.env.warn = .divisorWarning → t.status = .divisorWarning) ∧
      (s.env.warn = .baudRateWarning → t.status = .baudRateWarning) ∧
      t.opened = true ∧ t.HW = true ∧ t.S.val = nRaw - 8) ∧
    (nRaw = 0 ∨ nRaw = 8 ∨ 17 ≤ nRaw →
      exec (openRaw nRaw ppix) s = .next { s with status := .invalidParameter })

/-- CLOSE (rules R149, R150): its word; an Open block becomes Closed, with no buffers and an empty session, everything else
kept; on a Closed block nothing changes; `STATUS` is OK; a second CLOSE changes nothing. -/
def Obligations.CloseEndsTheSession : Prop :=
  decode 0x20000000 = .ok .closeSession ∧
  ∀ s : State,
    (s.opened = true → exec .closeSession s = .next { s with
      opened := false, S := 0, P := 0, HW := false, out := [], cura := [], status := .ok }) ∧
    (s.opened = false → exec .closeSession s = .next { s with status := .ok }) ∧
    (∀ t, exec .closeSession s = .next t → exec .closeSession t = .next t)

/-! ### ENCODE -/

/-- The checks of ENCODE come before anything is written: when one fails, only `STATUS` changes (rule R96). -/
def Obligations.EncodeChecksFirst : Prop :=
  ∀ (s : State) (st map pix : Bool), ¬ s.FrameOk map pix →
    exec (.encodeFrame st map pix) s = .next { s with status := .invalidParameter }

/-- ENCODE without statistics (rules R103 to R105, R112, R115): every byte of the pixel region is the closed form of
the words of this frame, every other byte of `OUT`, the trailer among them, is as before; every element of `CURA` is its
slot's current; the word of strand `k` at position `p` is that of physical slot `k·P + p` (rule R33), and `CURA[k·P + p]` is
its current; `STATUS` is the transport's answer; nothing else changes (`EachFrameIsOneWrite` says what the transport is
handed), the `STATS` record included (rule R135). -/
def Obligations.EncodeRendersTheFrame : Prop :=
  ∀ (s : State) (map pix : Bool), s.FrameOk map pix →
    ∃ t, exec (.encodeFrame false map pix) s = .next t ∧
      t = { s with out := t.out, cura := t.cura, status := if s.env.txOk = true then .ok else .transmitFailure,
                   handed := t.handed } ∧
      (∀ a, outByte t.out a =
        if a < s.P * s.BPS then regionByte s (fun k p => s.slotWord map pix (k.val * s.P + p)) a
        else outByte s.out a) ∧
      (∀ i, t.cura.find i = if i < s.S.val * s.P then some (s.slotAmps map pix i) else s.cura.find i)

/-- The transport receives the whole of `OUT`, trailer included, in one write after the render, and none from a frame whose
checks fail (rules R96, R111). That the hand-over is visible in the state is the model's choice: log 8. -/
def Obligations.EachFrameIsOneWrite : Prop :=
  ∀ (s t : State) (st map pix : Bool), exec (.encodeFrame st map pix) s = .next t →
    (s.FrameOk map pix → t.handed = (List.range s.L).map (outByte t.out) :: s.handed) ∧
    (¬ s.FrameOk map pix → t.handed = s.handed)

/-- ENCODE with statistics (rules R113, R120 to R133): everything ENCODE does without them, and the assignments of the STAT
phase in their order; on the first frame of the record the period group is skipped (rule R125). -/
def Obligations.EncodeUpdatesTheRecord : Prop :=
  ∀ (s : State) (map pix : Bool) (r : Stats) (io now bits : Nat),
    s.FrameOk map pix → (0 < s.stats.frames → s.stats.lastTime ≤ s.env.tNow) →
    r = s.stats → io = s.env.ioUsec → now = s.env.tNow →
    bits = (if s.HW = true then s.S.val * s.L else s.S.val * s.L / 2) →
    ∃ t u, exec (.encodeFrame true map pix) s = .next t ∧ exec (.encodeFrame false map pix) s = .next u ∧
      t = { u with stats := t.stats } ∧
      t.stats.bits = bits ∧ t.stats.bits = s.S.val * (s.P + 1) * 32 ∧
      t.stats.usecIo = io ∧ t.stats.usecIoTotal = r.usecIoTotal + io ∧
      t.stats.bps = (if 0 < io then (bits : ℚ) * 10 ^ 6 / io else 0) ∧
      t.stats.bitsTotal = r.bitsTotal + bits ∧
      t.stats.bpsAvg = (if 0 < t.stats.usecIoTotal then (t.stats.bitsTotal : ℚ) * 10 ^ 6 / t.stats.usecIoTotal
        else t.stats.bps) ∧
      t.stats.ma = s.frameAmps map pix ∧ t.stats.maPeak = max r.maPeak t.stats.ma ∧
      t.stats.lastTime = now ∧ t.stats.frames = r.frames + 1 ∧
      (r.frames = 0 → t.stats.usecFrame = r.usecFrame ∧ t.stats.usecFrameTotal = r.usecFrameTotal ∧
        t.stats.fps = r.fps ∧ t.stats.fpsAvg = r.fpsAvg ∧ t.stats.mah = r.mah ∧ t.stats.mahTotal = r.mahTotal ∧
        t.stats.maAvg = r.maAvg) ∧
      (0 < r.frames →
        t.stats.usecFrame + r.lastTime = now ∧
        t.stats.usecFrameTotal = r.usecFrameTotal + t.stats.usecFrame ∧
        t.stats.fps = (if 0 < t.stats.usecFrame then 10 ^ 6 / (t.stats.usecFrame : ℚ) else 0) ∧
        t.stats.fpsAvg = (if 0 < t.stats.usecFrameTotal then (r.frames : ℚ) * 10 ^ 6 / t.stats.usecFrameTotal else 0) ∧
        t.stats.mah = r.ma * t.stats.usecFrame / (3600 * 10 ^ 6) ∧
        t.stats.mahTotal = r.mahTotal + t.stats.mah ∧
        t.stats.maAvg = (if 0 < t.stats.usecFrameTotal then t.stats.mahTotal * 3600 * 10 ^ 6 / t.stats.usecFrameTotal
          else 0))

/-- The machine's render leaves what the loops of rule R115's pseudocode leave, at every address of `OUT` and `CURA`. -/
def Obligations.RenderRefinesThePseudocode : Prop :=
  ∀ (s : State) (map pix : Bool),
    (∀ a, outByte (refRender s map pix).1 a = outByte (s.renderFrame map pix).out a) ∧
    (∀ i, (refRender s map pix).2.find i = (s.renderFrame map pix).cura.find i)

/-- The round trip (rule R108): after ENCODE, decoding strand `k` at position `p` from the waveform gives the packed word
bit for bit, when the strand's mask is not zero and shares no bit with another rendered strand's, nor with the clock
mask in software-clock mode; from either byte of a pair. The trailer decodes to the word 0. -/
def Obligations.WaveformDecodesToTheWord : Prop :=
  ∀ (s t : State) (st map pix second : Bool) (k : Strand) (p : Nat),
    s.FrameOk map pix → exec (.encodeFrame st map pix) s = .next t →
    k.val < s.S.val → s.pin k ≠ 0 →
    (p < s.P → s.maskAlone k → decodeWord t.HW second t.out (t.pin k) p = s.slotWord map pix (k.val * s.P + p)) ∧
    (s.SessionInv → (second = true → s.HW = false → s.pin k &&& s.CLK = 0) →
      decodeWord t.HW second t.out (t.pin k) s.P = 0)

/-- Nothing carries over between frames in the pixel region (rule R114): whatever `OUT` and `CURA` held before, ENCODE
leaves the same pixel region, the same currents, the same statistics and the same result. -/
def Obligations.FramesCarryNothingOver : Prop :=
  ∀ (s t u : State) (o : Memory Byte) (c : Memory ℚ) (st map pix : Bool),
    s.FrameOk map pix → exec (.encodeFrame st map pix) s = .next t →
    exec (.encodeFrame st map pix) { s with out := o, cura := c } = .next u →
    (∀ a < s.P * s.BPS, outByte u.out a = outByte t.out a) ∧
    (∀ i < s.NSLOT, u.cura.find i = t.cura.find i) ∧ u.stats = t.stats ∧ u.status = t.status

/-- Two ENCODEs in a row with the same inputs leave identical `OUT` and `CURA` (rule R117 item 10). For a `PIX` or `REMAP`
element the host never wrote, that both read the same value is the model's choice: log 3. -/
def Obligations.RepeatedEncodeIsStable : Prop :=
  ∀ (s t u : State) (st st' map pix : Bool),
    exec (.encodeFrame st map pix) s = .next t → exec (.encodeFrame st' map pix) t = .next u →
    (∀ a, outByte u.out a = outByte t.out a) ∧ (∀ i, u.cura.find i = t.cura.find i)

/-- The all-off frame (rule R110): without a pixel buffer every pixel slot carries all rendered masks in its control
positions and no data bit elsewhere; with no remap table either, every current is `base`. -/
def Obligations.FrameWithoutPixelsIsAllOff : Prop :=
  ∀ (s t : State) (st map : Bool), s.FrameOk map false → exec (.encodeFrame st map false) s = .next t →
    (∀ (k : Strand) (p : Nat), s.slotWord map false (k.val * s.P + p) = 0xFF000000) ∧
    (∀ a < s.P * s.BPS, outByte t.out a = allOffByte s.HW s.CLK (allMasks s) a) ∧
    (map = false → ∀ i < s.NSLOT, t.cura.find i = some s.cfg.cal.base)

/-- A pin in no rendered strand's mask, and with the software clock not in the clock mask, is 0 in every byte of `OUT`
(rule R109). -/
def Obligations.UnusedPinsStayLow : Prop :=
  ∀ (s t : State) (st map pix : Bool) (n : Nat), s.SessionInv → s.FrameOk map pix →
    exec (.encodeFrame st map pix) s = .next t →
    (∀ k : Strand, k.val < s.S.val → (s.pin k).getLsbD n = false) → (s.HW = false → s.CLK.getLsbD n = false) →
    ∀ a < s.L, (outByte t.out a).getLsbD n = false

/-- A failed write changes nothing but the result (rules R112, R163): ENCODE with `env.tx_ok = false` ends as with `true`,
with `TransmitFailure` in `STATUS` instead of OK. -/
def Obligations.TransmitFailureKeepsTheFrame : Prop :=
  ∀ (s t : State) (st map pix : Bool), s.FrameOk map pix → s.env.txOk = true →
    exec (.encodeFrame st map pix) s = .next t →
    t.status = .ok ∧ t.opened = true ∧ (st = true → t.stats.frames = s.stats.frames + 1) ∧
    exec (.encodeFrame st map pix) { s with env := { s.env with txOk := false } } =
      .next { t with env := { s.env with txOk := false }, status := .transmitFailure }

/-! ### Statistics -/

/-- Zero, not garbage (rule R134), for a record that was all zero before its first frame (rule R137). -/
def Obligations.RatesAreZeroNotGarbage : Prop :=
  ∀ (s t : State) (map pix : Bool), s.FrameOk map pix → (s.stats.frames = 0 → s.stats = Stats.zero) →
    exec (.encodeFrame true map pix) s = .next t →
    (t.stats.usecIo = 0 → t.stats.bps = 0) ∧
    (t.stats.usecFrame = 0 ∨ s.stats.frames = 0 → t.stats.fps = 0) ∧
    (t.stats.usecFrameTotal = 0 → t.stats.maAvg = 0 ∧ t.stats.fpsAvg = 0) ∧
    (t.stats.usecIoTotal = 0 → t.stats.bpsAvg = 0)

/-- The counters of the record never decrease, whatever the operation (rule R166); the charge for legal constants and a
record whose last current is not negative, which ENCODE preserves. -/
def Obligations.CountersNeverDecrease : Prop :=
  ∀ (i : Instr) (s t : State), exec i s = .next t →
    (s.stats.frames ≤ t.stats.frames ∧ s.stats.bitsTotal ≤ t.stats.bitsTotal ∧
      s.stats.usecIoTotal ≤ t.stats.usecIoTotal ∧ s.stats.usecFrameTotal ≤ t.stats.usecFrameTotal) ∧
    (s.cfg.Legal → 0 ≤ s.stats.ma → s.stats.mahTotal ≤ t.stats.mahTotal ∧ 0 ≤ t.stats.ma)
end

