-- ==== Sys2Proof/Laws/Memory.lean ====
section
/-! SUPPORT. The laws of element memories: read after write, and that every write keeps the canonical form. -/

namespace Sys2Proof.Machine

@[simp] theorem Memory.find_nil {α : Type} (a : Nat) : Memory.find ([] : Memory α) a = none := rfl

/-- An unlisted address gives no element. -/
theorem Memory.find_eq_none {α : Type} (m : Memory α) (a : Nat) (h : ∀ c ∈ m, c.1 ≠ a) : Memory.find m a = none := by
  unfold Memory.find
  rw [List.find?_eq_none.2 (by simpa using fun x y hx => h (x, y) hx)]
  rfl

variable {α : Type} [DecidableEq α]

/-- The listed elements of a run: inside the run every element that differs from the unlisted one, nothing outside. -/
theorem Memory.find_run (u : Option α) (vs : List α) (base a : Nat) :
    Memory.find (Memory.run u base vs) a =
      if base ≤ a then (vs[a - base]?).filter (fun v => decide (u ≠ some v)) else none := by
  induction vs generalizing base with
  | nil => simp [Memory.run, Memory.find]
  | cons v vs ih =>
    have hstep : ∀ h : base < a, (v :: vs)[a - base]? = vs[a - (base + 1)]? := by
      intro h
      rw [show a - base = (a - (base + 1)) + 1 by omega, List.getElem?_cons_succ]
    unfold Memory.run
    split
    · next hu =>
      rw [ih]
      rcases lt_trichotomy a base with h | rfl | h
      · rw [if_neg (by omega), if_neg (by omega)]
      · rw [if_neg (by omega), if_pos (by omega)]; simp [hu, Option.filter]
      · rw [if_pos (by omega), if_pos (by omega), hstep h]
    · next hu =>
      rcases lt_trichotomy a base with h | rfl | h
      · have := ih (base + 1)
        rw [if_neg (by omega)] at this
        rw [if_neg (by omega)]
        simp only [Memory.find, List.find?_cons] at this ⊢
        rw [show (base == a) = false by simp; omega]
        exact this
      · rw [if_pos (by omega)]; simp [Memory.find, hu, Option.filter]
      · have := ih (base + 1)
        rw [if_pos (by omega)] at this
        rw [if_pos (by omega), hstep h, ← this]
        simp only [Memory.find, List.find?_cons]
        rw [show (base == a) = false by simp; omega]

/-- Read after write of a run: inside the run the element written (none when it is the unlisted one), outside what was
there. -/
theorem Memory.find_writeRun (u : Option α) (m : Memory α) (base : Nat) (vs : List α) (a : Nat) :
    Memory.find (Memory.writeRun u m base vs) a =
      if base ≤ a ∧ a < base + vs.length then (vs[a - base]?).filter (fun v => decide (u ≠ some v))
      else Memory.find m a := by
  have hbelow : ∀ (P : Nat → Bool), Memory.find (m.filter fun c => P c.1) a = if P a then Memory.find m a else none := by
    intro P
    unfold Memory.find
    rw [List.find?_filter]
    induction m with
    | nil => simp
    | cons c m ih =>
      by_cases hc : c.1 = a
      · subst hc; by_cases hp : P c.1 <;> simp [hp]
        simpa [hp] using ih
      · simp only [List.find?_cons]
        rw [show (c.1 == a) = false by simpa using hc]
        simpa using ih
  have happ : ∀ x y : Memory α, Memory.find (x ++ y) a = (Memory.find x a).or (Memory.find y a) := by
    intro x y; simp [Memory.find, List.find?_append, Option.map_or]
  unfold Memory.writeRun
  rw [happ, happ, hbelow (fun k => decide (k < base)), hbelow (fun k => decide (base + vs.length ≤ k)),
    Memory.find_run]
  by_cases h1 : a < base
  · rw [if_neg (c := base ≤ a) (by omega), if_neg (c := base ≤ a ∧ _) (by omega)]
    simp [h1, show ¬ base + vs.length ≤ a by omega]
  · by_cases h2 : a < base + vs.length
    · simp [h1, show base ≤ a by omega, h2, show ¬ base + vs.length ≤ a by omega]
    · have : vs[a - base]? = none := List.getElem?_eq_none (by omega)
      simp [h1, show base ≤ a by omega, h2, show base + vs.length ≤ a by omega, this]

/-- Read after write of one element. -/
theorem Memory.find_write (u : Option α) (m : Memory α) (a : Nat) (v : α) (b : Nat) :
    Memory.find (Memory.write u m a v) b =
      if b = a then (if u = some v then none else some v) else Memory.find m b := by
  unfold Memory.write
  rw [Memory.find_writeRun]
  by_cases h : b = a
  · subst h
    by_cases hu : u = some v <;> simp [hu]
  · rw [if_neg (by simp; omega), if_neg h]

theorem Memory.run_bounds (u : Option α) (vs : List α) (base : Nat) :
    ∀ c ∈ Memory.run u base vs, base ≤ c.1 ∧ c.1 < base + vs.length := by
  induction vs generalizing base with
  | nil => simp [Memory.run]
  | cons v vs ih =>
    intro c hc
    unfold Memory.run at hc
    split at hc
    · have := ih _ c hc; simp; omega
    · rcases List.mem_cons.1 hc with rfl | hc
      · simp
      · have := ih _ c hc; simp; omega

theorem Memory.run_wf (u : Option α) (vs : List α) (base : Nat) : Memory.Wf u (Memory.run u base vs) := by
  induction vs generalizing base with
  | nil => simp [Memory.run, Memory.Wf]
  | cons v vs ih =>
    unfold Memory.run
    split
    · exact ih _
    · next hu =>
      refine ⟨List.pairwise_cons.2 ⟨fun c hc => ?_, (ih _).1⟩, fun c hc => ?_⟩
      · have := Memory.run_bounds u vs (base + 1) c hc; simp; omega
      · rcases List.mem_cons.1 hc with rfl | hc
        · exact hu
        · exact (ih _).2 c hc

/-- Every write keeps the canonical form. -/
theorem Memory.writeRun_wf (u : Option α) (m : Memory α) (base : Nat) (vs : List α) (h : Memory.Wf u m) :
    Memory.Wf u (Memory.writeRun u m base vs) := by
  have hr := Memory.run_wf u vs base
  have hb := Memory.run_bounds u vs base
  unfold Memory.writeRun
  refine ⟨List.pairwise_append.2 ⟨List.pairwise_append.2 ⟨h.1.filter _, hr.1, ?_⟩, h.1.filter _, ?_⟩, ?_⟩
  · intro c hc d hd
    have := hb d hd
    have := (List.mem_filter.1 hc).2
    simp at this; omega
  · intro c hc d hd
    have h1 := (List.mem_filter.1 hd).2
    simp at h1
    rcases List.mem_append.1 hc with hc | hc
    · have := (List.mem_filter.1 hc).2
      simp at this; omega
    · have := hb c hc; omega
  · intro c hc
    rcases List.mem_append.1 hc with hc | hc
    · rcases List.mem_append.1 hc with hc | hc
      · exact h.2 c (List.mem_of_mem_filter hc)
      · exact hr.2 c hc
    · exact h.2 c (List.mem_of_mem_filter hc)

/-- A write of one element keeps the canonical form. -/
theorem Memory.write_wf (u : Option α) (m : Memory α) (a : Nat) (v : α) (h : Memory.Wf u m) :
    Memory.Wf u (Memory.write u m a v) := Memory.writeRun_wf u m a [v] h

@[simp] theorem Memory.nil_wf (u : Option α) : Memory.Wf u ([] : Memory α) := by simp [Memory.Wf]

/-- Every address a write leaves listed was listed before or lies in the run. -/
theorem Memory.mem_writeRun (u : Option α) (m : Memory α) (base : Nat) (vs : List α) (c : Nat × α)
    (hc : c ∈ Memory.writeRun u m base vs) : c ∈ m ∨ base ≤ c.1 ∧ c.1 < base + vs.length := by
  unfold Memory.writeRun at hc
  rcases List.mem_append.1 hc with hc | hc
  · rcases List.mem_append.1 hc with hc | hc
    · exact .inl (List.mem_of_mem_filter hc)
    · exact .inr (Memory.run_bounds u vs base c hc)
  · exact .inl (List.mem_of_mem_filter hc)

/-- The byte at an address after a write of a run of bytes. -/
theorem outByte_writeRun (m : Memory Byte) (base : Nat) (vs : List Byte) (a : Nat) :
    outByte (Memory.writeRun outUnlisted m base vs) a =
      if base ≤ a ∧ a < base + vs.length then vs.getD (a - base) 0 else outByte m a := by
  unfold outByte
  rw [Memory.find_writeRun]
  split
  · next h =>
    have hl : a - base < vs.length := by omega
    simp only [List.getElem?_eq_getElem hl, List.getD_eq_getElem?_getD, Option.getD_some, outUnlisted,
      Option.filter]
    by_cases hz : 0#8 = vs[a - base]
    · simp [← hz]
    · simp [hz]
  · rfl

/-- The byte at an address after a write of one byte. -/
theorem outByte_write (m : Memory Byte) (b : Nat) (v : Byte) (a : Nat) :
    outByte (Memory.write outUnlisted m b v) a = if a = b then v else outByte m a := by
  unfold Memory.write
  rw [outByte_writeRun]
  by_cases h : a = b
  · subst h; simp
  · rw [if_neg (by simp; omega), if_neg h]

@[simp] theorem outByte_nil (a : Nat) : outByte [] a = 0 := rfl

@[simp] theorem outRun_length (m : Memory Byte) (base n : Nat) : (outRun m base n).length = n := by simp [outRun]

theorem outRun_getD (m : Memory Byte) (base n k : Nat) (h : k < n) : (outRun m base n).getD k 0 = outByte m (base + k) := by
  simp [outRun, h]

/-- Two byte memories in canonical form that read alike are the same data. -/
theorem Memory.ext_of_find (u : Option α) (m k : Memory α) (hm : Memory.Wf u m) (hk : Memory.Wf u k)
    (h : ∀ a, Memory.find m a = Memory.find k a) : m = k := by
  induction m generalizing k with
  | nil =>
    cases k with
    | nil => rfl
    | cons d k => have := h d.1; simp [Memory.find] at this
  | cons c m ih =>
    cases k with
    | nil => have := h c.1; simp [Memory.find] at this
    | cons d k =>
      have hmn : ∀ a ≤ c.1, Memory.find m a = none := fun a ha =>
        Memory.find_eq_none m a fun e he => by have := (List.pairwise_cons.1 hm.1).1 e he; omega
      have hkn : ∀ a ≤ d.1, Memory.find k a = none := fun a ha =>
        Memory.find_eq_none k a fun e he => by have := (List.pairwise_cons.1 hk.1).1 e he; omega
      have find_cons : ∀ (e : Nat × α) (l : Memory α) a,
          Memory.find (e :: l) a = if e.1 = a then some e.2 else Memory.find l a := by
        intro e l a
        by_cases he : e.1 = a <;> simp [Memory.find, he]
      simp only [find_cons] at h
      have h1 : c.1 = d.1 := by
        rcases lt_trichotomy c.1 d.1 with hlt | heq | hgt
        · have := h c.1; rw [if_pos rfl, if_neg (by omega), hkn _ (by omega)] at this; simp at this
        · exact heq
        · have := h d.1; rw [if_pos rfl, if_neg (by omega), hmn _ (by omega)] at this; simp at this
      have h2 : c.2 = d.2 := by have := h c.1; rw [if_pos rfl, if_pos h1.symm] at this; simpa using this
      have h3 : c = d := Prod.ext h1 h2
      subst h3
      rw [ih k ⟨(List.pairwise_cons.1 hm.1).2, fun e he => hm.2 e (List.mem_cons_of_mem _ he)⟩
        ⟨(List.pairwise_cons.1 hk.1).2, fun e he => hk.2 e (List.mem_cons_of_mem _ he)⟩]
      intro a
      by_cases ha : c.1 = a
      · rw [hmn a (by omega), hkn a (by omega)]
      · have := h a; rwa [if_neg ha, if_neg ha] at this

end Sys2Proof.Machine
end

