-- ==== Sys2Proof/Laws/State.lean ====
section
/-! SUPPORT. What each update of the state does to each field: one lemma a field and update, true by rfl. -/

namespace Sys2Proof.Machine

/-! ### `State.done` -/

@[simp] theorem State.done_opened (s : State) (k : Status) : (s.done k).opened = s.opened := rfl
@[simp] theorem State.done_S (s : State) (k : Status) : (s.done k).S = s.S := rfl
@[simp] theorem State.done_P (s : State) (k : Status) : (s.done k).P = s.P := rfl
@[simp] theorem State.done_HW (s : State) (k : Status) : (s.done k).HW = s.HW := rfl
@[simp] theorem State.done_pinmap (s : State) (k : Status) : (s.done k).pinmap = s.pinmap := rfl
@[simp] theorem State.done_gamma (s : State) (k : Status) : (s.done k).gamma = s.gamma := rfl
@[simp] theorem State.done_out (s : State) (k : Status) : (s.done k).out = s.out := rfl
@[simp] theorem State.done_cura (s : State) (k : Status) : (s.done k).cura = s.cura := rfl
@[simp] theorem State.done_status (s : State) (k : Status) : (s.done k).status = k := rfl
@[simp] theorem State.done_cw (s : State) (k : Status) : (s.done k).cw = s.cw := rfl
@[simp] theorem State.done_farg (s : State) (k : Status) : (s.done k).farg = s.farg := rfl
@[simp] theorem State.done_range (s : State) (k : Status) : (s.done k).range = s.range := rfl
@[simp] theorem State.done_pixlen (s : State) (k : Status) : (s.done k).pixlen = s.pixlen := rfl
@[simp] theorem State.done_pix (s : State) (k : Status) : (s.done k).pix = s.pix := rfl
@[simp] theorem State.done_remap (s : State) (k : Status) : (s.done k).remap = s.remap := rfl
@[simp] theorem State.done_stats (s : State) (k : Status) : (s.done k).stats = s.stats := rfl
@[simp] theorem State.done_cfg (s : State) (k : Status) : (s.done k).cfg = s.cfg := rfl
@[simp] theorem State.done_env (s : State) (k : Status) : (s.done k).env = s.env := rfl
@[simp] theorem State.done_pending (s : State) (k : Status) : (s.done k).pending = s.pending := rfl
@[simp] theorem State.done_handed (s : State) (k : Status) : (s.done k).handed = s.handed := rfl

/-! ### `State.raise` -/

@[simp] theorem State.raise_opened (s : State) (k : Status) : (s.raise k).opened = s.opened := rfl
@[simp] theorem State.raise_S (s : State) (k : Status) : (s.raise k).S = s.S := rfl
@[simp] theorem State.raise_P (s : State) (k : Status) : (s.raise k).P = s.P := rfl
@[simp] theorem State.raise_HW (s : State) (k : Status) : (s.raise k).HW = s.HW := rfl
@[simp] theorem State.raise_pinmap (s : State) (k : Status) : (s.raise k).pinmap = s.pinmap := rfl
@[simp] theorem State.raise_gamma (s : State) (k : Status) : (s.raise k).gamma = s.gamma := rfl
@[simp] theorem State.raise_out (s : State) (k : Status) : (s.raise k).out = s.out := rfl
@[simp] theorem State.raise_cura (s : State) (k : Status) : (s.raise k).cura = s.cura := rfl
@[simp] theorem State.raise_status (s : State) (k : Status) : (s.raise k).status = k := rfl
@[simp] theorem State.raise_cw (s : State) (k : Status) : (s.raise k).cw = s.cw := rfl
@[simp] theorem State.raise_farg (s : State) (k : Status) : (s.raise k).farg = s.farg := rfl
@[simp] theorem State.raise_range (s : State) (k : Status) : (s.raise k).range = s.range := rfl
@[simp] theorem State.raise_pixlen (s : State) (k : Status) : (s.raise k).pixlen = s.pixlen := rfl
@[simp] theorem State.raise_pix (s : State) (k : Status) : (s.raise k).pix = s.pix := rfl
@[simp] theorem State.raise_remap (s : State) (k : Status) : (s.raise k).remap = s.remap := rfl
@[simp] theorem State.raise_stats (s : State) (k : Status) : (s.raise k).stats = s.stats := rfl
@[simp] theorem State.raise_cfg (s : State) (k : Status) : (s.raise k).cfg = s.cfg := rfl
@[simp] theorem State.raise_env (s : State) (k : Status) : (s.raise k).env = s.env := rfl
@[simp] theorem State.raise_pending (s : State) (k : Status) : (s.raise k).pending = s.pending := rfl
@[simp] theorem State.raise_handed (s : State) (k : Status) : (s.raise k).handed = s.handed := rfl

/-! ### `State.setGamma` -/

@[simp] theorem State.setGamma_opened (s : State) (g : GammaTable) : (s.setGamma g).opened = s.opened := rfl
@[simp] theorem State.setGamma_S (s : State) (g : GammaTable) : (s.setGamma g).S = s.S := rfl
@[simp] theorem State.setGamma_P (s : State) (g : GammaTable) : (s.setGamma g).P = s.P := rfl
@[simp] theorem State.setGamma_HW (s : State) (g : GammaTable) : (s.setGamma g).HW = s.HW := rfl
@[simp] theorem State.setGamma_pinmap (s : State) (g : GammaTable) : (s.setGamma g).pinmap = s.pinmap := rfl
@[simp] theorem State.setGamma_gamma (s : State) (g : GammaTable) : (s.setGamma g).gamma = g := rfl
@[simp] theorem State.setGamma_out (s : State) (g : GammaTable) : (s.setGamma g).out = s.out := rfl
@[simp] theorem State.setGamma_cura (s : State) (g : GammaTable) : (s.setGamma g).cura = s.cura := rfl
@[simp] theorem State.setGamma_status (s : State) (g : GammaTable) : (s.setGamma g).status = s.status := rfl
@[simp] theorem State.setGamma_cw (s : State) (g : GammaTable) : (s.setGamma g).cw = s.cw := rfl
@[simp] theorem State.setGamma_farg (s : State) (g : GammaTable) : (s.setGamma g).farg = s.farg := rfl
@[simp] theorem State.setGamma_range (s : State) (g : GammaTable) : (s.setGamma g).range = s.range := rfl
@[simp] theorem State.setGamma_pixlen (s : State) (g : GammaTable) : (s.setGamma g).pixlen = s.pixlen := rfl
@[simp] theorem State.setGamma_pix (s : State) (g : GammaTable) : (s.setGamma g).pix = s.pix := rfl
@[simp] theorem State.setGamma_remap (s : State) (g : GammaTable) : (s.setGamma g).remap = s.remap := rfl
@[simp] theorem State.setGamma_stats (s : State) (g : GammaTable) : (s.setGamma g).stats = s.stats := rfl
@[simp] theorem State.setGamma_cfg (s : State) (g : GammaTable) : (s.setGamma g).cfg = s.cfg := rfl
@[simp] theorem State.setGamma_env (s : State) (g : GammaTable) : (s.setGamma g).env = s.env := rfl
@[simp] theorem State.setGamma_pending (s : State) (g : GammaTable) : (s.setGamma g).pending = s.pending := rfl
@[simp] theorem State.setGamma_handed (s : State) (g : GammaTable) : (s.setGamma g).handed = s.handed := rfl

/-! ### `State.setPin` -/

@[simp] theorem State.setPin_opened (s : State) (k : Strand) (m : Byte) : (s.setPin k m).opened = s.opened := rfl
@[simp] theorem State.setPin_S (s : State) (k : Strand) (m : Byte) : (s.setPin k m).S = s.S := rfl
@[simp] theorem State.setPin_P (s : State) (k : Strand) (m : Byte) : (s.setPin k m).P = s.P := rfl
@[simp] theorem State.setPin_HW (s : State) (k : Strand) (m : Byte) : (s.setPin k m).HW = s.HW := rfl
@[simp] theorem State.setPin_pinmap (s : State) (k : Strand) (m : Byte) : (s.setPin k m).pinmap = s.pinmap.set k.val m := rfl
@[simp] theorem State.setPin_gamma (s : State) (k : Strand) (m : Byte) : (s.setPin k m).gamma = s.gamma := rfl
@[simp] theorem State.setPin_out (s : State) (k : Strand) (m : Byte) : (s.setPin k m).out = s.out := rfl
@[simp] theorem State.setPin_cura (s : State) (k : Strand) (m : Byte) : (s.setPin k m).cura = s.cura := rfl
@[simp] theorem State.setPin_status (s : State) (k : Strand) (m : Byte) : (s.setPin k m).status = s.status := rfl
@[simp] theorem State.setPin_cw (s : State) (k : Strand) (m : Byte) : (s.setPin k m).cw = s.cw := rfl
@[simp] theorem State.setPin_farg (s : State) (k : Strand) (m : Byte) : (s.setPin k m).farg = s.farg := rfl
@[simp] theorem State.setPin_range (s : State) (k : Strand) (m : Byte) : (s.setPin k m).range = s.range := rfl
@[simp] theorem State.setPin_pixlen (s : State) (k : Strand) (m : Byte) : (s.setPin k m).pixlen = s.pixlen := rfl
@[simp] theorem State.setPin_pix (s : State) (k : Strand) (m : Byte) : (s.setPin k m).pix = s.pix := rfl
@[simp] theorem State.setPin_remap (s : State) (k : Strand) (m : Byte) : (s.setPin k m).remap = s.remap := rfl
@[simp] theorem State.setPin_stats (s : State) (k : Strand) (m : Byte) : (s.setPin k m).stats = s.stats := rfl
@[simp] theorem State.setPin_cfg (s : State) (k : Strand) (m : Byte) : (s.setPin k m).cfg = s.cfg := rfl
@[simp] theorem State.setPin_env (s : State) (k : Strand) (m : Byte) : (s.setPin k m).env = s.env := rfl
@[simp] theorem State.setPin_pending (s : State) (k : Strand) (m : Byte) : (s.setPin k m).pending = s.pending := rfl
@[simp] theorem State.setPin_handed (s : State) (k : Strand) (m : Byte) : (s.setPin k m).handed = s.handed := rfl

/-! ### `State.latch` -/

@[simp] theorem State.latch_opened (s : State) : (s.latch).opened = s.opened := rfl
@[simp] theorem State.latch_S (s : State) : (s.latch).S = s.S := rfl
@[simp] theorem State.latch_P (s : State) : (s.latch).P = s.P := rfl
@[simp] theorem State.latch_HW (s : State) : (s.latch).HW = s.HW := rfl
@[simp] theorem State.latch_pinmap (s : State) : (s.latch).pinmap = s.pinmap := rfl
@[simp] theorem State.latch_gamma (s : State) : (s.latch).gamma = s.gamma := rfl
@[simp] theorem State.latch_out (s : State) : (s.latch).out = clearSlot s.HW s.CLK s.out s.P := rfl
@[simp] theorem State.latch_cura (s : State) : (s.latch).cura = s.cura := rfl
@[simp] theorem State.latch_status (s : State) : (s.latch).status = s.status := rfl
@[simp] theorem State.latch_cw (s : State) : (s.latch).cw = s.cw := rfl
@[simp] theorem State.latch_farg (s : State) : (s.latch).farg = s.farg := rfl
@[simp] theorem State.latch_range (s : State) : (s.latch).range = s.range := rfl
@[simp] theorem State.latch_pixlen (s : State) : (s.latch).pixlen = s.pixlen := rfl
@[simp] theorem State.latch_pix (s : State) : (s.latch).pix = s.pix := rfl
@[simp] theorem State.latch_remap (s : State) : (s.latch).remap = s.remap := rfl
@[simp] theorem State.latch_stats (s : State) : (s.latch).stats = s.stats := rfl
@[simp] theorem State.latch_cfg (s : State) : (s.latch).cfg = s.cfg := rfl
@[simp] theorem State.latch_env (s : State) : (s.latch).env = s.env := rfl
@[simp] theorem State.latch_pending (s : State) : (s.latch).pending = s.pending := rfl
@[simp] theorem State.latch_handed (s : State) : (s.latch).handed = s.handed := rfl

/-! ### `State.renderAllOff` -/

@[simp] theorem State.renderAllOff_opened (s : State) : (s.renderAllOff).opened = s.opened := rfl
@[simp] theorem State.renderAllOff_S (s : State) : (s.renderAllOff).S = s.S := rfl
@[simp] theorem State.renderAllOff_P (s : State) : (s.renderAllOff).P = s.P := rfl
@[simp] theorem State.renderAllOff_HW (s : State) : (s.renderAllOff).HW = s.HW := rfl
@[simp] theorem State.renderAllOff_pinmap (s : State) : (s.renderAllOff).pinmap = s.pinmap := rfl
@[simp] theorem State.renderAllOff_gamma (s : State) : (s.renderAllOff).gamma = s.gamma := rfl
@[simp] theorem State.renderAllOff_out (s : State) : (s.renderAllOff).out = renderOut s fun _ _ => pack offRgb := rfl
@[simp] theorem State.renderAllOff_cura (s : State) : (s.renderAllOff).cura = s.cura := rfl
@[simp] theorem State.renderAllOff_status (s : State) : (s.renderAllOff).status = s.status := rfl
@[simp] theorem State.renderAllOff_cw (s : State) : (s.renderAllOff).cw = s.cw := rfl
@[simp] theorem State.renderAllOff_farg (s : State) : (s.renderAllOff).farg = s.farg := rfl
@[simp] theorem State.renderAllOff_range (s : State) : (s.renderAllOff).range = s.range := rfl
@[simp] theorem State.renderAllOff_pixlen (s : State) : (s.renderAllOff).pixlen = s.pixlen := rfl
@[simp] theorem State.renderAllOff_pix (s : State) : (s.renderAllOff).pix = s.pix := rfl
@[simp] theorem State.renderAllOff_remap (s : State) : (s.renderAllOff).remap = s.remap := rfl
@[simp] theorem State.renderAllOff_stats (s : State) : (s.renderAllOff).stats = s.stats := rfl
@[simp] theorem State.renderAllOff_cfg (s : State) : (s.renderAllOff).cfg = s.cfg := rfl
@[simp] theorem State.renderAllOff_env (s : State) : (s.renderAllOff).env = s.env := rfl
@[simp] theorem State.renderAllOff_pending (s : State) : (s.renderAllOff).pending = s.pending := rfl
@[simp] theorem State.renderAllOff_handed (s : State) : (s.renderAllOff).handed = s.handed := rfl

/-! ### `State.renderFrame` -/

@[simp] theorem State.renderFrame_opened (s : State) (map pix : Bool) : (s.renderFrame map pix).opened = s.opened := rfl
@[simp] theorem State.renderFrame_S (s : State) (map pix : Bool) : (s.renderFrame map pix).S = s.S := rfl
@[simp] theorem State.renderFrame_P (s : State) (map pix : Bool) : (s.renderFrame map pix).P = s.P := rfl
@[simp] theorem State.renderFrame_HW (s : State) (map pix : Bool) : (s.renderFrame map pix).HW = s.HW := rfl
@[simp] theorem State.renderFrame_pinmap (s : State) (map pix : Bool) : (s.renderFrame map pix).pinmap = s.pinmap := rfl
@[simp] theorem State.renderFrame_gamma (s : State) (map pix : Bool) : (s.renderFrame map pix).gamma = s.gamma := rfl
@[simp] theorem State.renderFrame_out (s : State) (map pix : Bool) : (s.renderFrame map pix).out = renderOut s fun k p => s.slotWord map pix (slotIndex s.P k p) := rfl
@[simp] theorem State.renderFrame_cura (s : State) (map pix : Bool) : (s.renderFrame map pix).cura = renderCura s map pix := rfl
@[simp] theorem State.renderFrame_status (s : State) (map pix : Bool) : (s.renderFrame map pix).status = s.status := rfl
@[simp] theorem State.renderFrame_cw (s : State) (map pix : Bool) : (s.renderFrame map pix).cw = s.cw := rfl
@[simp] theorem State.renderFrame_farg (s : State) (map pix : Bool) : (s.renderFrame map pix).farg = s.farg := rfl
@[simp] theorem State.renderFrame_range (s : State) (map pix : Bool) : (s.renderFrame map pix).range = s.range := rfl
@[simp] theorem State.renderFrame_pixlen (s : State) (map pix : Bool) : (s.renderFrame map pix).pixlen = s.pixlen := rfl
@[simp] theorem State.renderFrame_pix (s : State) (map pix : Bool) : (s.renderFrame map pix).pix = s.pix := rfl
@[simp] theorem State.renderFrame_remap (s : State) (map pix : Bool) : (s.renderFrame map pix).remap = s.remap := rfl
@[simp] theorem State.renderFrame_stats (s : State) (map pix : Bool) : (s.renderFrame map pix).stats = s.stats := rfl
@[simp] theorem State.renderFrame_cfg (s : State) (map pix : Bool) : (s.renderFrame map pix).cfg = s.cfg := rfl
@[simp] theorem State.renderFrame_env (s : State) (map pix : Bool) : (s.renderFrame map pix).env = s.env := rfl
@[simp] theorem State.renderFrame_pending (s : State) (map pix : Bool) : (s.renderFrame map pix).pending = s.pending := rfl
@[simp] theorem State.renderFrame_handed (s : State) (map pix : Bool) : (s.renderFrame map pix).handed = s.handed := rfl

/-! ### `State.transmit` -/

@[simp] theorem State.transmit_opened (s : State) : (s.transmit).opened = s.opened := rfl
@[simp] theorem State.transmit_S (s : State) : (s.transmit).S = s.S := rfl
@[simp] theorem State.transmit_P (s : State) : (s.transmit).P = s.P := rfl
@[simp] theorem State.transmit_HW (s : State) : (s.transmit).HW = s.HW := rfl
@[simp] theorem State.transmit_pinmap (s : State) : (s.transmit).pinmap = s.pinmap := rfl
@[simp] theorem State.transmit_gamma (s : State) : (s.transmit).gamma = s.gamma := rfl
@[simp] theorem State.transmit_out (s : State) : (s.transmit).out = s.out := rfl
@[simp] theorem State.transmit_cura (s : State) : (s.transmit).cura = s.cura := rfl
@[simp] theorem State.transmit_status (s : State) : (s.transmit).status = s.status := rfl
@[simp] theorem State.transmit_cw (s : State) : (s.transmit).cw = s.cw := rfl
@[simp] theorem State.transmit_farg (s : State) : (s.transmit).farg = s.farg := rfl
@[simp] theorem State.transmit_range (s : State) : (s.transmit).range = s.range := rfl
@[simp] theorem State.transmit_pixlen (s : State) : (s.transmit).pixlen = s.pixlen := rfl
@[simp] theorem State.transmit_pix (s : State) : (s.transmit).pix = s.pix := rfl
@[simp] theorem State.transmit_remap (s : State) : (s.transmit).remap = s.remap := rfl
@[simp] theorem State.transmit_stats (s : State) : (s.transmit).stats = s.stats := rfl
@[simp] theorem State.transmit_cfg (s : State) : (s.transmit).cfg = s.cfg := rfl
@[simp] theorem State.transmit_env (s : State) : (s.transmit).env = s.env := rfl
@[simp] theorem State.transmit_pending (s : State) : (s.transmit).pending = s.pending := rfl
@[simp] theorem State.transmit_handed (s : State) : (s.transmit).handed = outRun s.out 0 s.L :: s.handed := rfl

/-! ### `State.allocate` -/

@[simp] theorem State.allocate_opened (s : State) (hw : Bool) (n ppix : Nat) : (s.allocate hw n ppix).opened = s.opened := rfl
@[simp] theorem State.allocate_S (s : State) (hw : Bool) (n ppix : Nat) : (s.allocate hw n ppix).S = Fin.ofNat 9 n := rfl
@[simp] theorem State.allocate_P (s : State) (hw : Bool) (n ppix : Nat) : (s.allocate hw n ppix).P = ppix := rfl
@[simp] theorem State.allocate_HW (s : State) (hw : Bool) (n ppix : Nat) : (s.allocate hw n ppix).HW = hw := rfl
@[simp] theorem State.allocate_pinmap (s : State) (hw : Bool) (n ppix : Nat) : (s.allocate hw n ppix).pinmap = s.pinmap := rfl
@[simp] theorem State.allocate_gamma (s : State) (hw : Bool) (n ppix : Nat) : (s.allocate hw n ppix).gamma = s.gamma := rfl
@[simp] theorem State.allocate_out (s : State) (hw : Bool) (n ppix : Nat) : (s.allocate hw n ppix).out = [] := rfl
@[simp] theorem State.allocate_cura (s : State) (hw : Bool) (n ppix : Nat) : (s.allocate hw n ppix).cura = [] := rfl
@[simp] theorem State.allocate_status (s : State) (hw : Bool) (n ppix : Nat) : (s.allocate hw n ppix).status = s.status := rfl
@[simp] theorem State.allocate_cw (s : State) (hw : Bool) (n ppix : Nat) : (s.allocate hw n ppix).cw = s.cw := rfl
@[simp] theorem State.allocate_farg (s : State) (hw : Bool) (n ppix : Nat) : (s.allocate hw n ppix).farg = s.farg := rfl
@[simp] theorem State.allocate_range (s : State) (hw : Bool) (n ppix : Nat) : (s.allocate hw n ppix).range = s.range := rfl
@[simp] theorem State.allocate_pixlen (s : State) (hw : Bool) (n ppix : Nat) : (s.allocate hw n ppix).pixlen = s.pixlen := rfl
@[simp] theorem State.allocate_pix (s : State) (hw : Bool) (n ppix : Nat) : (s.allocate hw n ppix).pix = s.pix := rfl
@[simp] theorem State.allocate_remap (s : State) (hw : Bool) (n ppix : Nat) : (s.allocate hw n ppix).remap = s.remap := rfl
@[simp] theorem State.allocate_stats (s : State) (hw : Bool) (n ppix : Nat) : (s.allocate hw n ppix).stats = s.stats := rfl
@[simp] theorem State.allocate_cfg (s : State) (hw : Bool) (n ppix : Nat) : (s.allocate hw n ppix).cfg = s.cfg := rfl
@[simp] theorem State.allocate_env (s : State) (hw : Bool) (n ppix : Nat) : (s.allocate hw n ppix).env = s.env := rfl
@[simp] theorem State.allocate_pending (s : State) (hw : Bool) (n ppix : Nat) : (s.allocate hw n ppix).pending = s.pending := rfl
@[simp] theorem State.allocate_handed (s : State) (hw : Bool) (n ppix : Nat) : (s.allocate hw n ppix).handed = s.handed := rfl

/-! ### `State.unwind` -/

@[simp] theorem State.unwind_opened (s : State) : (s.unwind).opened = false := rfl
@[simp] theorem State.unwind_S (s : State) : (s.unwind).S = 0 := rfl
@[simp] theorem State.unwind_P (s : State) : (s.unwind).P = 0 := rfl
@[simp] theorem State.unwind_HW (s : State) : (s.unwind).HW = false := rfl
@[simp] theorem State.unwind_pinmap (s : State) : (s.unwind).pinmap = s.pinmap := rfl
@[simp] theorem State.unwind_gamma (s : State) : (s.unwind).gamma = s.gamma := rfl
@[simp] theorem State.unwind_out (s : State) : (s.unwind).out = [] := rfl
@[simp] theorem State.unwind_cura (s : State) : (s.unwind).cura = [] := rfl
@[simp] theorem State.unwind_status (s : State) : (s.unwind).status = s.status := rfl
@[simp] theorem State.unwind_cw (s : State) : (s.unwind).cw = s.cw := rfl
@[simp] theorem State.unwind_farg (s : State) : (s.unwind).farg = s.farg := rfl
@[simp] theorem State.unwind_range (s : State) : (s.unwind).range = s.range := rfl
@[simp] theorem State.unwind_pixlen (s : State) : (s.unwind).pixlen = s.pixlen := rfl
@[simp] theorem State.unwind_pix (s : State) : (s.unwind).pix = s.pix := rfl
@[simp] theorem State.unwind_remap (s : State) : (s.unwind).remap = s.remap := rfl
@[simp] theorem State.unwind_stats (s : State) : (s.unwind).stats = s.stats := rfl
@[simp] theorem State.unwind_cfg (s : State) : (s.unwind).cfg = s.cfg := rfl
@[simp] theorem State.unwind_env (s : State) : (s.unwind).env = s.env := rfl
@[simp] theorem State.unwind_pending (s : State) : (s.unwind).pending = s.pending := rfl
@[simp] theorem State.unwind_handed (s : State) : (s.unwind).handed = s.handed := rfl

/-! ### `State.finishOpen` -/

@[simp] theorem State.finishOpen_opened (s : State) : (s.finishOpen).opened = true := rfl
@[simp] theorem State.finishOpen_S (s : State) : (s.finishOpen).S = s.S := rfl
@[simp] theorem State.finishOpen_P (s : State) : (s.finishOpen).P = s.P := rfl
@[simp] theorem State.finishOpen_HW (s : State) : (s.finishOpen).HW = s.HW := rfl
@[simp] theorem State.finishOpen_pinmap (s : State) : (s.finishOpen).pinmap = s.pinmap := rfl
@[simp] theorem State.finishOpen_gamma (s : State) : (s.finishOpen).gamma = s.cfg.gammaDefault := rfl
@[simp] theorem State.finishOpen_out (s : State) : (s.finishOpen).out = s.out := rfl
@[simp] theorem State.finishOpen_cura (s : State) : (s.finishOpen).cura = s.cura := rfl
@[simp] theorem State.finishOpen_status (s : State) : (s.finishOpen).status = s.env.warn.status := rfl
@[simp] theorem State.finishOpen_cw (s : State) : (s.finishOpen).cw = s.cw := rfl
@[simp] theorem State.finishOpen_farg (s : State) : (s.finishOpen).farg = s.farg := rfl
@[simp] theorem State.finishOpen_range (s : State) : (s.finishOpen).range = s.range := rfl
@[simp] theorem State.finishOpen_pixlen (s : State) : (s.finishOpen).pixlen = s.pixlen := rfl
@[simp] theorem State.finishOpen_pix (s : State) : (s.finishOpen).pix = s.pix := rfl
@[simp] theorem State.finishOpen_remap (s : State) : (s.finishOpen).remap = s.remap := rfl
@[simp] theorem State.finishOpen_stats (s : State) : (s.finishOpen).stats = s.stats := rfl
@[simp] theorem State.finishOpen_cfg (s : State) : (s.finishOpen).cfg = s.cfg := rfl
@[simp] theorem State.finishOpen_env (s : State) : (s.finishOpen).env = s.env := rfl
@[simp] theorem State.finishOpen_pending (s : State) : (s.finishOpen).pending = s.pending := rfl
@[simp] theorem State.finishOpen_handed (s : State) : (s.finishOpen).handed = s.handed := rfl

/-! ### `State.accept` -/

@[simp] theorem State.accept_opened (s : State) (w : Word) (e : Env) : (s.accept w e).opened = s.opened := rfl
@[simp] theorem State.accept_S (s : State) (w : Word) (e : Env) : (s.accept w e).S = s.S := rfl
@[simp] theorem State.accept_P (s : State) (w : Word) (e : Env) : (s.accept w e).P = s.P := rfl
@[simp] theorem State.accept_HW (s : State) (w : Word) (e : Env) : (s.accept w e).HW = s.HW := rfl
@[simp] theorem State.accept_pinmap (s : State) (w : Word) (e : Env) : (s.accept w e).pinmap = s.pinmap := rfl
@[simp] theorem State.accept_gamma (s : State) (w : Word) (e : Env) : (s.accept w e).gamma = s.gamma := rfl
@[simp] theorem State.accept_out (s : State) (w : Word) (e : Env) : (s.accept w e).out = s.out := rfl
@[simp] theorem State.accept_cura (s : State) (w : Word) (e : Env) : (s.accept w e).cura = s.cura := rfl
@[simp] theorem State.accept_status (s : State) (w : Word) (e : Env) : (s.accept w e).status = s.status := rfl
@[simp] theorem State.accept_cw (s : State) (w : Word) (e : Env) : (s.accept w e).cw = w := rfl
@[simp] theorem State.accept_farg (s : State) (w : Word) (e : Env) : (s.accept w e).farg = s.farg := rfl
@[simp] theorem State.accept_range (s : State) (w : Word) (e : Env) : (s.accept w e).range = s.range := rfl
@[simp] theorem State.accept_pixlen (s : State) (w : Word) (e : Env) : (s.accept w e).pixlen = s.pixlen := rfl
@[simp] theorem State.accept_pix (s : State) (w : Word) (e : Env) : (s.accept w e).pix = s.pix := rfl
@[simp] theorem State.accept_remap (s : State) (w : Word) (e : Env) : (s.accept w e).remap = s.remap := rfl
@[simp] theorem State.accept_stats (s : State) (w : Word) (e : Env) : (s.accept w e).stats = s.stats := rfl
@[simp] theorem State.accept_cfg (s : State) (w : Word) (e : Env) : (s.accept w e).cfg = s.cfg := rfl
@[simp] theorem State.accept_env (s : State) (w : Word) (e : Env) : (s.accept w e).env = e := rfl
@[simp] theorem State.accept_pending (s : State) (w : Word) (e : Env) : (s.accept w e).pending = s.pending := rfl
@[simp] theorem State.accept_handed (s : State) (w : Word) (e : Env) : (s.accept w e).handed = s.handed := rfl

/-! ### Derived quantities -/

@[simp] theorem State.done_BPS (s : State) (k : Status) : (s.done k).BPS = s.BPS := rfl
@[simp] theorem State.done_L (s : State) (k : Status) : (s.done k).L = s.L := rfl
@[simp] theorem State.done_NSLOT (s : State) (k : Status) : (s.done k).NSLOT = s.NSLOT := rfl
@[simp] theorem State.done_CLK (s : State) (k : Status) : (s.done k).CLK = s.CLK := rfl
@[simp] theorem State.done_pin (s : State) (k : Status) (j : Strand) : (s.done k).pin j = s.pin j := rfl
@[simp] theorem State.raise_BPS (s : State) (k : Status) : (s.raise k).BPS = s.BPS := rfl
@[simp] theorem State.raise_L (s : State) (k : Status) : (s.raise k).L = s.L := rfl
@[simp] theorem State.raise_NSLOT (s : State) (k : Status) : (s.raise k).NSLOT = s.NSLOT := rfl
@[simp] theorem State.raise_CLK (s : State) (k : Status) : (s.raise k).CLK = s.CLK := rfl
@[simp] theorem State.raise_pin (s : State) (k : Status) (j : Strand) : (s.raise k).pin j = s.pin j := rfl
@[simp] theorem State.setGamma_BPS (s : State) (g : GammaTable) : (s.setGamma g).BPS = s.BPS := rfl
@[simp] theorem State.setGamma_L (s : State) (g : GammaTable) : (s.setGamma g).L = s.L := rfl
@[simp] theorem State.setGamma_NSLOT (s : State) (g : GammaTable) : (s.setGamma g).NSLOT = s.NSLOT := rfl
@[simp] theorem State.setGamma_CLK (s : State) (g : GammaTable) : (s.setGamma g).CLK = s.CLK := rfl
@[simp] theorem State.setGamma_pin (s : State) (g : GammaTable) (j : Strand) : (s.setGamma g).pin j = s.pin j := rfl
@[simp] theorem State.setPin_BPS (s : State) (k : Strand) (m : Byte) : (s.setPin k m).BPS = s.BPS := rfl
@[simp] theorem State.setPin_L (s : State) (k : Strand) (m : Byte) : (s.setPin k m).L = s.L := rfl
@[simp] theorem State.setPin_NSLOT (s : State) (k : Strand) (m : Byte) : (s.setPin k m).NSLOT = s.NSLOT := rfl
@[simp] theorem State.latch_BPS (s : State) : (s.latch).BPS = s.BPS := rfl
@[simp] theorem State.latch_L (s : State) : (s.latch).L = s.L := rfl
@[simp] theorem State.latch_NSLOT (s : State) : (s.latch).NSLOT = s.NSLOT := rfl
@[simp] theorem State.latch_CLK (s : State) : (s.latch).CLK = s.CLK := rfl
@[simp] theorem State.latch_pin (s : State) (j : Strand) : (s.latch).pin j = s.pin j := rfl
@[simp] theorem State.renderAllOff_BPS (s : State) : (s.renderAllOff).BPS = s.BPS := rfl
@[simp] theorem State.renderAllOff_L (s : State) : (s.renderAllOff).L = s.L := rfl
@[simp] theorem State.renderAllOff_NSLOT (s : State) : (s.renderAllOff).NSLOT = s.NSLOT := rfl
@[simp] theorem State.renderAllOff_CLK (s : State) : (s.renderAllOff).CLK = s.CLK := rfl
@[simp] theorem State.renderAllOff_pin (s : State) (j : Strand) : (s.renderAllOff).pin j = s.pin j := rfl
@[simp] theorem State.renderFrame_BPS (s : State) (map pix : Bool) : (s.renderFrame map pix).BPS = s.BPS := rfl
@[simp] theorem State.renderFrame_L (s : State) (map pix : Bool) : (s.renderFrame map pix).L = s.L := rfl
@[simp] theorem State.renderFrame_NSLOT (s : State) (map pix : Bool) : (s.renderFrame map pix).NSLOT = s.NSLOT := rfl
@[simp] theorem State.renderFrame_CLK (s : State) (map pix : Bool) : (s.renderFrame map pix).CLK = s.CLK := rfl
@[simp] theorem State.renderFrame_pin (s : State) (map pix : Bool) (j : Strand) : (s.renderFrame map pix).pin j = s.pin j := rfl
@[simp] theorem State.transmit_BPS (s : State) : (s.transmit).BPS = s.BPS := rfl
@[simp] theorem State.transmit_L (s : State) : (s.transmit).L = s.L := rfl
@[simp] theorem State.transmit_NSLOT (s : State) : (s.transmit).NSLOT = s.NSLOT := rfl
@[simp] theorem State.transmit_CLK (s : State) : (s.transmit).CLK = s.CLK := rfl
@[simp] theorem State.transmit_pin (s : State) (j : Strand) : (s.transmit).pin j = s.pin j := rfl
@[simp] theorem State.allocate_CLK (s : State) (hw : Bool) (n ppix : Nat) : (s.allocate hw n ppix).CLK = s.CLK := rfl
@[simp] theorem State.allocate_pin (s : State) (hw : Bool) (n ppix : Nat) (j : Strand) : (s.allocate hw n ppix).pin j = s.pin j := rfl
@[simp] theorem State.unwind_CLK (s : State) : (s.unwind).CLK = s.CLK := rfl
@[simp] theorem State.unwind_pin (s : State) (j : Strand) : (s.unwind).pin j = s.pin j := rfl
@[simp] theorem State.finishOpen_BPS (s : State) : (s.finishOpen).BPS = s.BPS := rfl
@[simp] theorem State.finishOpen_L (s : State) : (s.finishOpen).L = s.L := rfl
@[simp] theorem State.finishOpen_NSLOT (s : State) : (s.finishOpen).NSLOT = s.NSLOT := rfl
@[simp] theorem State.finishOpen_CLK (s : State) : (s.finishOpen).CLK = s.CLK := rfl
@[simp] theorem State.finishOpen_pin (s : State) (j : Strand) : (s.finishOpen).pin j = s.pin j := rfl
@[simp] theorem State.accept_BPS (s : State) (w : Word) (e : Env) : (s.accept w e).BPS = s.BPS := rfl
@[simp] theorem State.accept_L (s : State) (w : Word) (e : Env) : (s.accept w e).L = s.L := rfl
@[simp] theorem State.accept_NSLOT (s : State) (w : Word) (e : Env) : (s.accept w e).NSLOT = s.NSLOT := rfl
@[simp] theorem State.accept_CLK (s : State) (w : Word) (e : Env) : (s.accept w e).CLK = s.CLK := rfl
@[simp] theorem State.accept_pin (s : State) (w : Word) (e : Env) (j : Strand) : (s.accept w e).pin j = s.pin j := rfl

/-- The mask of a strand after a write of `PINMAP[k]`. -/
theorem State.setPin_pin (s : State) (k j : Strand) (m : Byte) :
    (s.setPin k m).pin j = if j = k then m else s.pin j := by
  have h : (s.setPin k m).pin j = (s.pinmap.set k.val m)[j.val] := rfl
  have h' : s.pin j = s.pinmap[j.val] := rfl
  rw [h, h', Vector.getElem_set]
  by_cases hjk : j = k
  · simp [hjk]
  · rw [if_neg (fun e => hjk (Fin.ext e.symm)), if_neg hjk]

/-- Writing a strand other than 7 leaves the clock mask. -/
theorem State.setPin_CLK (s : State) (k : Strand) (m : Byte) : (s.setPin k m).CLK = if k = 7 then m else s.CLK := by
  rw [show (s.setPin k m).CLK = (s.setPin k m).pin 7 from rfl, State.setPin_pin]
  by_cases h : k = 7
  · simp [h]
  · rw [if_neg (Ne.symm h), if_neg h]; rfl

@[simp] theorem State.withFetchWord_pending (s : State) (nbits w : Nat) :
    (s.withFetchWord nbits w).pending = .command (BitVec.ofNat 32 (w % 2 ^ nbits)) s.env :: s.pending := rfl

/-- Raising changes `STATUS` and nothing else (rule R161). -/
theorem State.raise_eq (s : State) (k : Status) : s.raise k = { s with status := k } := rfl

end Sys2Proof.Machine
end

