-- ==== Sys2Proof/Laws/Waveform.lean ====
section
/-! SUPPORT. The waveform byte by byte: what CLEAR, LATCH and the render leave at each address of `OUT` (rules R101 to
R103, R143). -/

namespace Sys2Proof.Machine

/-! ### Lists of equal blocks -/

theorem flatMap_range_length {α : Type} (f : Nat → List α) (L n : Nat) (hL : ∀ p, (f p).length = L) :
    ((List.range n).flatMap f).length = n * L := by
  induction n with
  | zero => simp
  | succ n ih => rw [List.range_succ, List.flatMap_append, List.length_append, ih]; simp [hL, Nat.succ_mul]

/-- Element `a` of a concatenation of blocks of length `L` is element `a mod L` of block `a / L`. -/
theorem flatMap_range_getD {α : Type} (f : Nat → List α) (L n a : Nat) (d : α) (hL : ∀ p, (f p).length = L)
    (ha : a < n * L) : ((List.range n).flatMap f).getD a d = (f (a / L)).getD (a % L) d := by
  induction n with
  | zero => simp at ha
  | succ n ih =>
    have hpos : 0 < L := Nat.pos_of_ne_zero fun h => by simp [h] at ha
    rw [List.range_succ, List.flatMap_append]
    by_cases h : a < n * L
    · rw [List.getD_append _ _ _ _ (by rw [flatMap_range_length f L n hL]; exact h), ih h]
    · have h1 : n * L ≤ a := by omega
      have h2 : a / L = n := by
        rw [Nat.succ_mul] at ha
        exact Nat.div_eq_of_lt_le h1 (by rw [Nat.succ_mul]; exact ha)
      have h3 : a % L = a - n * L := by
        have := Nat.div_add_mod a L; rw [h2, mul_comm] at this; omega
      rw [List.getD_append_right _ _ _ _ (by rw [flatMap_range_length f L n hL]; exact h1),
        flatMap_range_length f L n hL, h2, h3]
      simp

theorem bps_pos (hw : Bool) : 0 < bps hw := by cases hw <;> decide

/-! ### One pixel slot -/

@[simp] theorem clearBytes_length (hw : Bool) (clk : Byte) : (clearBytes hw clk).length = bps hw := by
  unfold clearBytes bps
  cases hw
  · exact flatMap_range_length _ 2 32 fun _ => rfl
  · exact flatMap_range_length _ 1 32 fun _ => rfl

theorem clearBytes_getD (hw : Bool) (clk : Byte) (k : Nat) (hk : k < bps hw) :
    (clearBytes hw clk).getD k 0 = latchByte hw clk k := by
  unfold clearBytes latchByte
  cases hw
  · rw [flatMap_range_getD _ 2 32 k 0 (fun _ => rfl) (by simpa [bps] using hk)]
    rcases Nat.mod_two_eq_zero_or_one k with h | h <;> simp [h]
  · rw [flatMap_range_getD _ 1 32 k 0 (fun _ => rfl) (by simpa [bps] using hk)]
    simp [Nat.mod_one]

/-- The word bit that byte `k` of a pixel slot carries (rule R35). -/
def slotBit (hw : Bool) (k : Nat) : Nat := 31 - if hw then k else k / 2

@[simp] theorem strandBytes_length (hw : Bool) (m : Byte) (w : Word) : (strandBytes hw m w).length = bps hw := by
  unfold strandBytes bps
  cases hw
  · exact flatMap_range_length _ 2 32 fun _ => rfl
  · exact flatMap_range_length _ 1 32 fun _ => rfl

theorem strandBytes_getD (hw : Bool) (m : Byte) (w : Word) (k : Nat) (hk : k < bps hw) :
    (strandBytes hw m w).getD k 0 = if w.getLsbD (slotBit hw k) then m else 0 := by
  unfold strandBytes slotBit
  cases hw
  · rw [flatMap_range_getD _ 2 32 k 0 (fun _ => rfl) (by simpa [bps] using hk)]
    rcases Nat.mod_two_eq_zero_or_one k with h | h <;> simp [h]
  · rw [flatMap_range_getD _ 1 32 k 0 (fun _ => rfl) (by simpa [bps] using hk)]
    simp [Nat.mod_one]

theorem zipWith_or_getD (x y : List Byte) (k : Nat) (h : x.length = y.length) :
    (List.zipWith (· ||| ·) x y).getD k 0 = x.getD k 0 ||| y.getD k 0 := by
  by_cases hk : k < x.length
  · have hk' : k < y.length := h ▸ hk
    simp [List.getD_eq_getElem?_getD, List.getElem?_zipWith, List.getElem?_eq_getElem hk, List.getElem?_eq_getElem hk']
  · simp [List.getD_eq_getElem?_getD, List.getElem?_zipWith, List.getElem?_eq_none (Nat.not_lt.1 hk),
      List.getElem?_eq_none (h ▸ Nat.not_lt.1 hk)]

theorem foldl_or_init {β : Type} (l : List β) (f : β → Byte) (x : Byte) :
    l.foldl (fun acc k => acc ||| f k) x = x ||| l.foldl (fun acc k => acc ||| f k) 0 := by
  induction l generalizing x with
  | nil => simp
  | cons b l ih =>
    simp only [List.foldl_cons]
    rw [ih, ih (0 ||| f b), BitVec.or_assoc]
    simp

@[simp] theorem slotBytes_length (s : State) (word : Strand → Nat → Word) (p : Nat) :
    (slotBytes s word p).length = bps s.HW := by
  unfold slotBytes
  have : ∀ (l : List Strand) (bs : List Byte), bs.length = bps s.HW →
      (l.foldl (fun bs k => transposeBytes s.HW bs (s.pin k) (word k p)) bs).length = bps s.HW := by
    intro l
    induction l with
    | nil => intro bs h; exact h
    | cons k l ih => intro bs h; exact ih _ (by simp [transposeBytes, h])
  exact this _ _ (clearBytes_length _ _)

/-- Byte `k` of pixel slot `p`: what CLEAR wrote, with the data bits of all strands ORed in. -/
theorem slotBytes_getD (s : State) (word : Strand → Nat → Word) (p k : Nat) (hk : k < bps s.HW) :
    (slotBytes s word p).getD k 0 = latchByte s.HW s.CLK k ||| dataBits s word p (slotBit s.HW k) := by
  unfold slotBytes
  have : ∀ (l : List Strand) (bs : List Byte), bs.length = bps s.HW →
      (l.foldl (fun bs k => transposeBytes s.HW bs (s.pin k) (word k p)) bs).getD k 0 =
        l.foldl (fun acc j => acc ||| if (word j p).getLsbD (slotBit s.HW k) then s.pin j else 0) (bs.getD k 0) := by
    intro l
    induction l with
    | nil => intro bs _; rfl
    | cons j l ih =>
      intro bs h
      rw [List.foldl_cons, List.foldl_cons, ih _ (by simp [transposeBytes, h])]
      rw [show (transposeBytes s.HW bs (s.pin j) (word j p)).getD k 0 = _ from
        zipWith_or_getD _ _ _ (by simp [h]), strandBytes_getD _ _ _ _ hk]
  rw [this _ _ (clearBytes_length _ _), clearBytes_getD _ _ _ hk, foldl_or_init]
  rfl

/-! ### `OUT` -/

/-- The bytes after `CLEAR(q)` (rule R101). -/
theorem outByte_clearSlot (hw : Bool) (clk : Byte) (out : Memory Byte) (q a : Nat) :
    outByte (clearSlot hw clk out q) a =
      if q * bps hw ≤ a ∧ a < q * bps hw + bps hw then latchByte hw clk (a - q * bps hw) else outByte out a := by
  unfold clearSlot
  rw [outByte_writeRun, clearBytes_length]
  split
  · next h => exact clearBytes_getD _ _ _ (by omega)
  · rfl

/-- Byte `a` of the pixel region after the render (rule R103). -/
theorem slotBytes_regionByte (s : State) (word : Strand → Nat → Word) (a : Nat) :
    (slotBytes s word (a / bps s.HW)).getD (a % bps s.HW) 0 = regionByte s word a := by
  rw [slotBytes_getD _ _ _ _ (Nat.mod_lt _ (bps_pos _))]
  unfold regionByte latchByte slotBit bps
  cases s.HW
  · simp only [Bool.false_eq_true, if_false]
    have h : a % 64 % 2 = a % 2 := by omega
    rw [h]
    split <;> simp
  · simp

/-- The bytes after the render: the closed form in the pixel region, nothing changed above it (rules R103, R104). -/
theorem outByte_renderOut (s : State) (word : Strand → Nat → Word) (a : Nat) :
    outByte (renderOut s word) a = if a < s.P * s.BPS then regionByte s word a else outByte s.out a := by
  unfold renderOut State.BPS
  rw [outByte_writeRun, flatMap_range_length _ (bps s.HW) s.P (fun p => slotBytes_length s word p)]
  simp only [Nat.zero_le, true_and, Nat.zero_add, Nat.sub_zero]
  split
  · next h =>
    rw [flatMap_range_getD _ (bps s.HW) s.P a 0 (fun p => slotBytes_length s word p) h, slotBytes_regionByte]
  · rfl

/-- The bytes after `LATCH()`: the trailer, nothing changed below or above it (rule R143). -/
theorem outByte_latch (s : State) (a : Nat) :
    outByte s.latch.out a =
      if s.P * s.BPS ≤ a ∧ a < s.L then latchByte s.HW s.CLK (a - s.P * s.BPS) else outByte s.out a := by
  rw [State.latch_out, outByte_clearSlot]
  have : s.L = s.P * s.BPS + s.BPS := by unfold State.L; rw [Nat.succ_mul]
  rw [this]
  rfl

/-! ### The memories stay canonical and within their bounds -/

theorem clearSlot_wf (hw : Bool) (clk : Byte) (out : Memory Byte) (q : Nat) (h : Memory.Wf outUnlisted out) :
    Memory.Wf outUnlisted (clearSlot hw clk out q) := Memory.writeRun_wf _ _ _ _ h

theorem renderOut_wf (s : State) (word : Strand → Nat → Word) (h : Memory.Wf outUnlisted s.out) :
    Memory.Wf outUnlisted (renderOut s word) := Memory.writeRun_wf _ _ _ _ h

theorem clearSlot_bound (hw : Bool) (clk : Byte) (out : Memory Byte) (q : Nat) (c : Nat × Byte)
    (h : c ∈ clearSlot hw clk out q) : c ∈ out ∨ c.1 < q * bps hw + bps hw := by
  rcases Memory.mem_writeRun _ _ _ _ _ h with h | h
  · exact .inl h
  · rw [clearBytes_length] at h; exact .inr h.2

theorem renderOut_bound (s : State) (word : Strand → Nat → Word) (c : Nat × Byte) (h : c ∈ renderOut s word) :
    c ∈ s.out ∨ c.1 < s.P * s.BPS := by
  rcases Memory.mem_writeRun _ _ _ _ _ h with h | h
  · exact .inl h
  · rw [flatMap_range_length _ (bps s.HW) s.P (fun p => slotBytes_length s word p)] at h
    exact .inr (by simpa [State.BPS] using h.2)

end Sys2Proof.Machine
end

