-- ==== Sys2Proof/Laws/Encoder.lean ====
section
/-! SUPPORT. The currents and the statistics of a frame: what the render leaves in `CURA`, and that the STAT phase always
finds a value in every element (rules R20, R105, R131). -/

namespace Sys2Proof.Machine

/-- `CURA` after the render: the current of every physical slot, nothing changed elsewhere (rule R105). -/
theorem renderCura_find (s : State) (map pix : Bool) (i : Nat) :
    Memory.find (renderCura s map pix) i = if i < s.NSLOT then some (s.slotAmps map pix i) else Memory.find s.cura i := by
  unfold renderCura
  rw [Memory.find_writeRun]
  simp only [Nat.zero_le, true_and, Nat.zero_add, Nat.sub_zero, List.length_map, List.length_range]
  split
  · next h => simp [h, curaUnlisted, Option.filter]
  · rfl

theorem renderCura_wf (s : State) (map pix : Bool) (h : Memory.Wf curaUnlisted s.cura) :
    Memory.Wf curaUnlisted (renderCura s map pix) := Memory.writeRun_wf _ _ _ _ h

theorem renderCura_bound (s : State) (map pix : Bool) (c : Nat × Num) (h : c ∈ renderCura s map pix) :
    c ∈ s.cura ∨ c.1 < s.NSLOT := by
  rcases Memory.mem_writeRun _ _ _ _ _ h with h | h
  · exact .inl h
  · exact .inr (by simpa using h.2)

/-- The sum of elements that all hold a value. -/
theorem curaSum_ok (cura : Memory Num) (f : Nat → Num) (n : Nat) (h : ∀ i < n, Memory.find cura i = some (f i)) :
    curaSum cura n = .ok (((List.range n).map f).sum) := by
  induction n with
  | zero => rfl
  | succ n ih =>
    have ih := ih fun i hi => h i (Nat.lt_succ_of_lt hi)
    simp only [curaSum, ih, h n (Nat.lt_succ_self n)]
    rw [List.range_succ, List.map_append, List.sum_append]
    simp

/-- After the render the STAT phase reads the sum of the frame's currents (rule R131). -/
theorem curaSum_renderFrame (s : State) (map pix : Bool) :
    curaSum (renderCura s map pix) s.NSLOT = .ok (s.frameAmps map pix) :=
  curaSum_ok _ _ _ fun i hi => by rw [renderCura_find, if_pos hi]

/-- The STAT phase of a frame: the updated record, or the refusal of a clock that stepped backwards. -/
theorem statPhase_renderFrame (s : State) (map pix : Bool) :
    ((s.renderFrame map pix).transmit).statPhase =
      if s.stats.clockRuns s.env.tNow then
        .next { (s.renderFrame map pix).transmit with
          stats := s.stats.update (frameBits s.S.val s.L s.HW) s.env.ioUsec s.env.tNow (s.frameAmps map pix) }
      else .refused .clockStepsBack := by
  unfold State.statPhase
  simp only [State.transmit_stats, State.renderFrame_stats, State.transmit_env, State.renderFrame_env,
    State.transmit_cura, State.renderFrame_cura, State.transmit_NSLOT, State.renderFrame_NSLOT,
    curaSum_renderFrame, State.transmit_S, State.renderFrame_S, State.transmit_L, State.renderFrame_L,
    State.transmit_HW, State.renderFrame_HW]

/-- Everything ENCODE without statistics can do. -/
theorem execEncode_off (map pix : Bool) (s : State) :
    execEncode false map pix s = .next (if s.frameLegal map pix then
      ((s.renderFrame map pix).transmit).done (txStatus s.env.txOk) else s.raise .invalidParameter) := by
  unfold execEncode
  split <;> simp [finishEncode]

/-- Everything ENCODE with statistics can do. -/
theorem execEncode_on (map pix : Bool) (s : State) :
    execEncode true map pix s =
      if s.frameLegal map pix then
        if s.stats.clockRuns s.env.tNow then
          .next (({ (s.renderFrame map pix).transmit with
            stats := s.stats.update (frameBits s.S.val s.L s.HW) s.env.ioUsec s.env.tNow (s.frameAmps map pix) } :
              State).done (txStatus s.env.txOk))
        else .refused .clockStepsBack
      else .next (s.raise .invalidParameter) := by
  unfold execEncode
  split
  · simp only [if_true, statPhase_renderFrame]
    split <;> simp [finishEncode]
  · rfl

/-- The checks of ENCODE, as a proposition (rule R96). -/
theorem frameLegal_iff (s : State) (map pix : Bool) : s.frameLegal map pix = true ↔ s.FrameOk map pix := by
  simp only [State.frameLegal, State.FrameOk, Bool.and_eq_true, List.all_eq_true, List.mem_range, slotLegal, State.NSLOT]
  refine and_congr_right fun _ => forall_congr' fun i => imp_congr_right fun _ => ?_
  cases pix <;> simp <;> omega

/-- The checks of ENCODE read the session, the remap table and the buffer length only. -/
theorem frameLegal_congr (s t : State) (map pix : Bool) (ho : t.opened = s.opened) (hS : t.S = s.S) (hP : t.P = s.P)
    (hr : t.remap = s.remap) (hl : t.pixlen = s.pixlen) : t.frameLegal map pix = s.frameLegal map pix := by
  have h : slotLegal t map pix = slotLegal s map pix := by
    funext i
    have e : t.sourceIndex map i = s.sourceIndex map i := by simp only [State.sourceIndex, State.remapAt, hr]
    unfold slotLegal
    rw [e, hl]
  simp only [State.frameLegal, State.NSLOT, ho, hS, hP, h]

/-- A frame whose checks pass ends, if it ends at all, in the rendered state with some record. -/
theorem execEncode_next_of_legal (s t : State) (st map pix : Bool) (h : execEncode st map pix s = .next t)
    (hl : s.frameLegal map pix = true) :
    ∃ r, t = { (s.renderFrame map pix).transmit with stats := r, status := txStatus s.env.txOk } := by
  cases st
  · rw [execEncode_off, if_pos hl] at h
    cases h
    exact ⟨_, rfl⟩
  · rw [execEncode_on, if_pos hl] at h
    split at h
    · cases h
      exact ⟨_, rfl⟩
    · cases h

/-- A frame whose checks fail changes the result only (rule R96). -/
theorem execEncode_of_not_legal (s : State) (st map pix : Bool) (hl : ¬ s.frameLegal map pix = true) :
    execEncode st map pix s = .next (s.raise .invalidParameter) := by
  unfold execEncode
  rw [if_neg hl]

theorem mem_strandsBelow (S : Fin 9) (k : Strand) : k ∈ strandsBelow S ↔ k.val < S.val := by
  simp only [strandsBelow, List.mem_filter, decide_eq_true_eq]
  exact and_iff_right (by fin_cases k <;> decide)

/-- Bit `n` of an OR over strands. -/
theorem getLsbD_foldl_or (l : List Strand) (f : Strand → Byte) (n : Nat) (x : Byte) :
    (l.foldl (fun acc k => acc ||| f k) x).getLsbD n = (x.getLsbD n || l.any fun k => (f k).getLsbD n) := by
  induction l generalizing x with
  | nil => simp
  | cons a l ih => simp [ih, Bool.or_assoc]

end Sys2Proof.Machine
end

