-- ==== Sys2Proof/Laws/HostPort.lean ====
section
/-! SUPPORT. What a step does with the host's next action, and what a host's read does (rules R8, R39). -/

namespace Sys2Proof.Machine

/-- With no action left the block waits (rule R176). -/
theorem step_of_pending_nil (s : State) (h : s.pending = []) : step s = .next s := by
  unfold step hostStep
  rw [h]

/-- A step takes the host's next action off the list and does it. -/
theorem step_of_pending_cons (s : State) (a : HostAction) (rest : List HostAction) (h : s.pending = a :: rest) :
    step s = hostAct a { s with pending := rest } := by
  unfold step hostStep
  rw [h]

@[simp] theorem hostRead_ok {α : Type} (v : α) (s : State) : hostRead (.ok v) s = .next s := rfl

@[simp] theorem hostRead_error {α : Type} (f : Fault) (s : State) : hostRead (.error f : Except Fault α) s = .fault f := rfl

/-- A host's read either leaves the whole state as it is or stops with its fault (rule R39). -/
theorem hostRead_next {α : Type} (r : Except Fault α) (s t : State) (h : hostRead r s = .next t) : t = s := by
  cases r with
  | ok v => exact (Host.Outcome.next.inj h).symm
  | error f => cases h

end Sys2Proof.Machine
end

