-- ==== Sys2Proof/Laws/Operands.lean ====
section
/-! SUPPORT. The exponent operand: `fargValue` is the number rule R58 writes, positive when the pattern is legal; a table
read gives the entry tabulated. -/

namespace Sys2Proof

@[simp] theorem tabulate_get {α : Type} {n : Nat} (f : Fin n → α) (i : Fin n) : (tabulate f).get i = f i := by
  simp [tabulate, Vector.get, Fin.cast]

@[simp] theorem GammaTable.tabulate_entry (f : Channel → Fin 256 → Byte) (c : Channel) (v : Byte) :
    (GammaTable.tabulate f).entry c v = f c v.toFin := by
  simp [GammaTable.tabulate, GammaTable.entry]

namespace Machine

/-- The exact value of a pattern whose sign is 0 is the number of rule R58. -/
theorem fargValue_eq_binary64 (v : BitVec 64) (h : fargSign v = false) : fargValue v = binary64Value v := by
  unfold fargValue binary64Value fargSignificand
  rw [h]
  simp only [Bool.false_eq_true, if_false, one_mul]
  by_cases h0 : fargBiased v = 0
  · simp only [h0, if_true]
    rw [if_neg (by norm_num), Rat.mkRat_eq_div]
    have : (2 : ℚ) ^ (-1022 : ℤ) = 1 / 2 ^ 1022 := by rw [zpow_neg]; norm_num
    rw [this]
    push_cast
    have h52 : (2 : ℚ) ^ (1075 - max 0 1) = 2 ^ 52 * 2 ^ 1022 := by rw [← pow_add]; norm_num
    rw [h52, div_mul_div_comm, mul_one]
  · simp only [if_neg h0]
    have hm : max (fargBiased v) 1 = fargBiased v := by omega
    rw [hm]
    have hsig : (1 + (fargFraction v : ℚ) / 2 ^ 52) = ((2 ^ 52 + fargFraction v : Nat) : ℚ) / 2 ^ 52 := by
      push_cast; norm_num; ring
    rw [hsig]
    split
    · next h1 =>
      rw [Rat.mkRat_eq_div]
      push_cast
      have : (2 : ℚ) ^ ((fargBiased v : ℤ) - 1023) = 2 ^ (fargBiased v - 1075) * 2 ^ 52 := by
        rw [← pow_add, ← zpow_natCast]; congr 1; omega
      rw [this]; field_simp
    · next h1 =>
      rw [Rat.mkRat_eq_div]
      push_cast
      have : (2 : ℚ) ^ ((fargBiased v : ℤ) - 1023) = 2 ^ 52 / 2 ^ (1075 - fargBiased v) := by
        rw [eq_div_iff (by positivity), ← zpow_natCast, ← zpow_add₀ (by norm_num), ← zpow_natCast]
        congr 1; omega
      rw [this]; field_simp

/-- A legal exponent is a positive number (rule R58). -/
theorem fargValue_pos (v : BitVec 64) (h : fargLegal v = true) : 0 < fargValue v := by
  unfold fargLegal at h
  simp only [Bool.and_eq_true, Bool.not_eq_true', Bool.and_eq_false_iff, beq_eq_false_iff_ne, ne_eq] at h
  have hs : 0 < fargSignificand v := by
    unfold fargSignificand
    split
    · next h0 => rcases h.2 with h2 | h2 <;> omega
    · positivity
  unfold fargValue
  simp only
  split
  · rw [Rat.mkRat_eq_div]; push_cast
    have : (0 : ℚ) < fargSignificand v := by exact_mod_cast hs
    positivity
  · rw [Rat.mkRat_eq_div]; push_cast
    have : (0 : ℚ) < fargSignificand v := by exact_mod_cast hs
    positivity

end Machine
end Sys2Proof
end

