-- ==== Sys2Proof/Laws/PerInstr.lean ====
section
/-! SUPPORT. What holds of every instruction as a term, constructor by constructor: its encoding carries its own opcode in
`CW[31:28]`, and the row of rule R61 with that opcode selects it. -/

namespace Sys2Proof.Laws.EncodedOpcode

/-- The encoding of a well-formed instruction carries its opcode in the top four bits, and the row of the opcode table with
that opcode selects it (rules R59 to R61). -/
def Statement (i : Instr) : Prop :=
  i.wellFormed = true → cwField (encode i) 31 28 = i.op ∧ ∃ r ∈ opcodeRows, r.op = i.op ∧ r.selects (encode i) = true

/-- A field placed below bit `k` leaves bit `k` clear. -/
theorem cwPlace_getLsbD (k width value lo : Nat) (h : lo + width ≤ k) : (cwPlace width value lo).getLsbD k = false := by
  unfold cwPlace
  rw [BitVec.getLsbD_shiftLeft, BitVec.getLsbD_setWidth, BitVec.getLsbD_of_ge _ (k - lo) (by omega)]
  simp

/-- The row of OPEN selects its encoding, whatever the operands. -/
theorem openSession_row (hw : Bool) (n ppix : Nat) : encode (.openSession hw n ppix) &&& 0xFE000000 = 0x10000000 := by
  apply BitVec.eq_of_getLsbD_eq
  intro i hi
  by_cases h : i < 25
  · have e : (0xFE000000 : Word).getLsbD i = false ∧ (0x10000000 : Word).getLsbD i = false := by
      revert i
      decide
    rw [BitVec.getLsbD_and, e.1, e.2, Bool.and_false]
  · have e : (0xFE000000 : Word).getLsbD i = true := by
      revert i
      decide
    simp only [encode, BitVec.getLsbD_and, BitVec.getLsbD_or, cwPlace_getLsbD i 1 _ 24 (by omega),
      cwPlace_getLsbD i 8 _ 16 (by omega), cwPlace_getLsbD i 16 _ 0 (by omega), e, Bool.or_false, Bool.and_true]

/-- The row of SET_PIN selects its encoding, whatever the operands. -/
theorem setPin_row (idx : Nat) (mask : Byte) : encode (.setPin idx mask) &&& 0xFFFF0000 = 0x60000000 := by
  apply BitVec.eq_of_getLsbD_eq
  intro i hi
  by_cases h : i < 16
  · have e : (0xFFFF0000 : Word).getLsbD i = false ∧ (0x60000000 : Word).getLsbD i = false := by
      revert i
      decide
    rw [BitVec.getLsbD_and, e.1, e.2, Bool.and_false]
  · have e : (0xFFFF0000 : Word).getLsbD i = true := by
      revert i
      decide
    simp only [encode, BitVec.getLsbD_and, BitVec.getLsbD_or, cwPlace_getLsbD i 8 _ 8 (by omega),
      BitVec.getLsbD_setWidth, BitVec.getLsbD_of_ge mask i (by omega), e, Bool.or_false, Bool.and_true, Bool.and_false]

/-- A word selected by a row whose mask keeps the top four bits carries that row's opcode. -/
theorem opcode_of_row (w m p : Word) (op : Nat) (hs : w &&& m = p) (hm : m.extractLsb 31 28 = 15)
    (hp : (p.extractLsb 31 28).toNat = op) : cwField w 31 28 = op := by
  have e : (w &&& m).extractLsb 31 28 = w.extractLsb 31 28 &&& m.extractLsb 31 28 := by
    apply BitVec.eq_of_getLsbD_eq
    intro i hi
    simp [BitVec.extractLsb, hi]
  have f : ∀ x : BitVec 4, x &&& 15 = x := by decide
  unfold cwField
  rw [← hp, ← hs, e, hm]
  exact congrArg BitVec.toNat (f _).symm

theorem openSession (hw : Bool) (n ppix : Nat) : Statement (.openSession hw n ppix) := fun _ =>
  ⟨opcode_of_row _ _ _ 1 (openSession_row hw n ppix) rfl rfl, { op := 1, pattern := 0x10000000, mask := 0xFE000000 },
    by decide, rfl, beq_iff_eq.2 (openSession_row hw n ppix)⟩

theorem closeSession : Statement .closeSession := by
  unfold Statement
  decide

theorem gammaSimple : Statement .gammaSimple := by
  unfold Statement
  decide

theorem gammaRange : Statement .gammaRange := by
  unfold Statement
  decide

theorem gammaOff : Statement .gammaOff := by
  unfold Statement
  decide

theorem setPin (idx : Nat) (mask : Byte) : Statement (.setPin idx mask) := fun _ =>
  ⟨opcode_of_row _ _ _ 6 (setPin_row idx mask) rfl rfl, { op := 6, pattern := 0x60000000, mask := 0xFFFF0000 },
    by decide, rfl, beq_iff_eq.2 (setPin_row idx mask)⟩

theorem encodeFrame (st map pix : Bool) : Statement (.encodeFrame st map pix) := by
  unfold Statement
  revert st map pix
  decide

end Sys2Proof.Laws.EncodedOpcode
end

