-- ==== Sys2Proof/Laws/Power.lean ====
section
/-! SUPPORT. The gamma power is exact: `scaledPow` is the real floor (or ceiling) that rules R71, R72 and R74 write, for
every exponent. -/

namespace Sys2Proof.Machine

/-! ### The enclosures of a logarithm -/

theorem lt_div_pow_mul (y k : Nat) : y < (y / 2 ^ k + 1) * 2 ^ k := by
  have h := Nat.div_add_mod y (2 ^ k)
  have := Nat.mod_lt y (Nat.two_pow_pos k)
  nlinarith

theorem powLog2Lo_le (N n : Nat) : ∀ (e y : Nat) (X : ℝ), 1 ≤ X → (2 : ℝ) ^ e * y ≤ X * 2 ^ N →
    (2 : ℝ) ^ powLog2Lo N n e y ≤ X ^ 2 ^ n := by
  induction n with
  | zero =>
    intro e y X hX h
    unfold powLog2Lo
    split
    · next hy =>
      have hy' : (2 : ℝ) ^ N ≤ y := by exact_mod_cast hy
      have h2 : (2 : ℝ) ^ e * 2 ^ N ≤ X * 2 ^ N := le_trans (by gcongr) h
      simpa using le_of_mul_le_mul_right h2 (by positivity)
    · simpa using hX
  | succ n ih =>
    intro e y X hX h
    unfold powLog2Lo
    rw [pow_succ' 2 n, pow_mul]
    refine ih _ _ (X ^ 2) (one_le_pow₀ hX) ?_
    set y2 := y * y / 2 ^ N with hy2
    set k := Nat.log2 y2 - N
    have h1 : ((y2 / 2 ^ k : Nat) : ℝ) * 2 ^ k ≤ y2 := by exact_mod_cast Nat.div_mul_le_self y2 (2 ^ k)
    have h2 : (y2 : ℝ) * 2 ^ N ≤ (y : ℝ) * y := by exact_mod_cast Nat.div_mul_le_self (y * y) (2 ^ N)
    have h3 : ((2 : ℝ) ^ e * y) * (2 ^ e * y) ≤ (X * 2 ^ N) * (X * 2 ^ N) :=
      mul_self_le_mul_self (by positivity) h
    have h4 : (2 : ℝ) ^ (2 * e + k) * ((y2 / 2 ^ k : Nat) : ℝ) * 2 ^ N ≤ X ^ 2 * 2 ^ N * 2 ^ N := by
      calc (2 : ℝ) ^ (2 * e + k) * ((y2 / 2 ^ k : Nat) : ℝ) * 2 ^ N
          = (2 ^ e * 2 ^ e) * (((y2 / 2 ^ k : Nat) : ℝ) * 2 ^ k * 2 ^ N) := by rw [pow_add, two_mul, pow_add]; ring
        _ ≤ (2 ^ e * 2 ^ e) * (y2 * 2 ^ N) := by gcongr
        _ ≤ (2 ^ e * 2 ^ e) * (y * y) := by gcongr
        _ = (2 ^ e * y) * (2 ^ e * y) := by ring
        _ ≤ (X * 2 ^ N) * (X * 2 ^ N) := h3
        _ = X ^ 2 * 2 ^ N * 2 ^ N := by ring
    exact le_of_mul_le_mul_right h4 (by positivity)

theorem le_powLog2Hi (N n : Nat) : ∀ (e y : Nat) (X : ℝ), 1 ≤ X → X * 2 ^ N ≤ (2 : ℝ) ^ e * y →
    X ^ 2 ^ n ≤ (2 : ℝ) ^ powLog2Hi N n e y := by
  induction n with
  | zero =>
    intro e y X hX h
    unfold powLog2Hi
    have hy : (y : ℝ) ≤ 2 ^ (Nat.log2 y + 1) := by exact_mod_cast Nat.lt_log2_self.le
    have h1 : X * 2 ^ N ≤ 2 ^ (e + (Nat.log2 y + 1)) := by
      rw [pow_add]; exact h.trans (by gcongr)
    have h2 : (2 : ℝ) ^ N ≤ 2 ^ (e + (Nat.log2 y + 1)) :=
      le_trans (by nlinarith [pow_pos (two_pos : (0 : ℝ) < 2) N]) h1
    have h3 : N ≤ e + (Nat.log2 y + 1) := (pow_le_pow_iff_right₀ (by norm_num)).1 h2
    have h4 : (2 : ℝ) ^ (e + (Nat.log2 y + 1)) = 2 ^ (e + (Nat.log2 y + 1) - N) * 2 ^ N := by
      rw [← pow_add, Nat.sub_add_cancel h3]
    rw [h4] at h1
    simpa using le_of_mul_le_mul_right h1 (by positivity)
  | succ n ih =>
    intro e y X hX h
    unfold powLog2Hi
    rw [pow_succ' 2 n, pow_mul]
    refine ih _ _ (X ^ 2) (one_le_pow₀ hX) ?_
    set y2 := y * y / 2 ^ N + 1 with hy2
    set k := Nat.log2 y2 - N
    have h1 : (y2 : ℝ) ≤ ((y2 / 2 ^ k + 1 : Nat) : ℝ) * 2 ^ k := by
      exact_mod_cast (lt_div_pow_mul y2 k).le
    have h2 : (y : ℝ) * y ≤ (y2 : ℝ) * 2 ^ N := by
      exact_mod_cast (lt_div_pow_mul (y * y) N).le
    have h3 : (X * 2 ^ N) * (X * 2 ^ N) ≤ ((2 : ℝ) ^ e * y) * (2 ^ e * y) :=
      mul_self_le_mul_self (by positivity) h
    have h4 : X ^ 2 * 2 ^ N * 2 ^ N ≤ (2 : ℝ) ^ (2 * e + k) * ((y2 / 2 ^ k + 1 : Nat) : ℝ) * 2 ^ N := by
      calc X ^ 2 * 2 ^ N * 2 ^ N = (X * 2 ^ N) * (X * 2 ^ N) := by ring
        _ ≤ (2 ^ e * y) * (2 ^ e * y) := h3
        _ = (2 ^ e * 2 ^ e) * (y * y) := by ring
        _ ≤ (2 ^ e * 2 ^ e) * (y2 * 2 ^ N) := by gcongr
        _ ≤ (2 ^ e * 2 ^ e) * (((y2 / 2 ^ k + 1 : Nat) : ℝ) * 2 ^ k * 2 ^ N) := by gcongr
        _ = (2 : ℝ) ^ (2 * e + k) * ((y2 / 2 ^ k + 1 : Nat) : ℝ) * 2 ^ N := by rw [pow_add, two_mul, pow_add]; ring
    exact le_of_mul_le_mul_right h4 (by positivity)

theorem ratioLog2Lo_le (n u w : Nat) (hw : 0 < w) (huw : w ≤ u) :
    (2 : ℝ) ^ ratioLog2Lo n u w ≤ ((u : ℝ) / w) ^ 2 ^ n := by
  have hw' : (0 : ℝ) < w := by exact_mod_cast hw
  refine powLog2Lo_le _ _ _ _ _ ((one_le_div hw').2 (by exact_mod_cast huw)) ?_
  have h : ((u * 2 ^ (n + 16) / w : Nat) : ℝ) * w ≤ u * 2 ^ (n + 16) := by
    exact_mod_cast Nat.div_mul_le_self (u * 2 ^ (n + 16)) w
  rw [pow_zero, one_mul, div_mul_eq_mul_div, le_div_iff₀ hw']
  exact h

theorem le_ratioLog2Hi (n u w : Nat) (hw : 0 < w) (huw : w ≤ u) :
    ((u : ℝ) / w) ^ 2 ^ n ≤ (2 : ℝ) ^ ratioLog2Hi n u w := by
  have hw' : (0 : ℝ) < w := by exact_mod_cast hw
  refine le_powLog2Hi _ _ _ _ _ ((one_le_div hw').2 (by exact_mod_cast huw)) ?_
  have hm : ∀ m : Nat, (m : ℝ) ≤ ((m / w + 1 : Nat) : ℝ) * w := fun m => by
    exact_mod_cast ((Nat.div_lt_iff_lt_mul hw).1 (Nat.lt_succ_self (m / w))).le
  have h := hm (u * 2 ^ (n + 16))
  rw [Nat.cast_mul, Nat.cast_pow, Nat.cast_ofNat] at h
  rw [pow_zero, one_mul, div_mul_eq_mul_div, div_le_iff₀ hw']
  exact h

/-! ### The comparison -/

/-- `(u/w)^a < (t/z)^b` from the enclosures. -/
theorem ratio_pow_lt (n a b u w t z : Nat) (hw : 0 < w) (huw : w ≤ u) (hz : 0 < z) (hzt : z ≤ t)
    (h : a * ratioLog2Hi n u w < b * ratioLog2Lo n t z) : ((u : ℝ) / w) ^ a < ((t : ℝ) / z) ^ b := by
  have h1 := le_ratioLog2Hi n u w hw huw
  have h2 := ratioLog2Lo_le n t z hz hzt
  have hu : (0 : ℝ) ≤ (u : ℝ) / w := by positivity
  have ht : (0 : ℝ) ≤ (t : ℝ) / z := by positivity
  refine lt_of_pow_lt_pow_left₀ (2 ^ n) (by positivity) ?_
  calc (((u : ℝ) / w) ^ a) ^ 2 ^ n = (((u : ℝ) / w) ^ 2 ^ n) ^ a := by rw [← pow_mul, ← pow_mul, mul_comm]
    _ ≤ (2 ^ ratioLog2Hi n u w) ^ a := by gcongr
    _ = 2 ^ (a * ratioLog2Hi n u w) := by rw [← pow_mul, mul_comm]
    _ < 2 ^ (b * ratioLog2Lo n t z) := by gcongr; norm_num
    _ = (2 ^ ratioLog2Lo n t z) ^ b := by rw [← pow_mul, mul_comm]
    _ ≤ (((t : ℝ) / z) ^ 2 ^ n) ^ b := by gcongr
    _ = (((t : ℝ) / z) ^ b) ^ 2 ^ n := by rw [← pow_mul, ← pow_mul, mul_comm]

/-- The comparison of powers of ratios, in integers. -/
theorem ratio_pow_lt_iff (a b u w t z : Nat) (hw : 0 < w) (hz : 0 < z) :
    ((u : ℝ) / w) ^ a < ((t : ℝ) / z) ^ b ↔ z ^ b * u ^ a < w ^ a * t ^ b := by
  have hw' : (0 : ℝ) < (w : ℝ) ^ a := by positivity
  have hz' : (0 : ℝ) < (z : ℝ) ^ b := by positivity
  rw [div_pow, div_pow, div_lt_div_iff₀ hw' hz']
  rw [mul_comm ((u : ℝ) ^ a), mul_comm ((t : ℝ) ^ b)]
  exact_mod_cast Iff.rfl

/-- What an enclosure decides is what the integers say. -/
theorem belowPowAt_sound (n a b p q i : Nat) (hp : 0 < p) (hpq : p < q) (hi : 0 < i) (hi' : i < 255) (v : Bool)
    (h : belowPowAt n a b p q i = some v) :
    (v = true → p ^ b * 255 ^ a < i ^ a * q ^ b) ∧ (v = false → i ^ a * q ^ b < p ^ b * 255 ^ a) := by
  unfold belowPowAt at h
  split at h
  · next hlt =>
    cases h
    have := ratio_pow_lt n a b 255 i q p hi hi'.le hp hpq.le hlt
    refine ⟨fun _ => (ratio_pow_lt_iff a b 255 i q p hi hp).1 (by exact_mod_cast this), fun h => by simp at h⟩
  · split at h
    · next hlt =>
      cases h
      have := ratio_pow_lt n b a q p 255 i hp hpq.le hi hi'.le hlt
      exact ⟨fun h => by simp at h, fun _ => (ratio_pow_lt_iff b a q p 255 i hp hi).1 (by exact_mod_cast this)⟩
    · cases h

/-- The comparison as the machine makes it is the comparison in integers. -/
theorem belowPow_eq_exact (strict : Bool) (a b p q i : Nat) (hp : 0 < p) (hpq : p < q) (hi : i ≤ 255) (ha : 0 < a)
    (hb : 0 < b) : belowPow strict a b p q i = belowPowExact strict a b p q i := by
  unfold belowPow
  split
  · next h0 =>
    subst h0
    have : 0 < p ^ b * 255 ^ a := by positivity
    cases strict
    · simp [belowPowExact, zero_pow ha.ne']; omega
    · simp [belowPowExact, zero_pow ha.ne']
  split
  · next h255 =>
    subst h255
    have h1 : p ^ b < q ^ b := Nat.pow_lt_pow_left hpq hb.ne'
    have h2 : p ^ b * 255 ^ a < 255 ^ a * q ^ b := by
      rw [mul_comm]; exact Nat.mul_lt_mul_of_pos_left h1 (by positivity)
    cases strict <;> simp [belowPowExact, h2, h2.le]
  · next h0 h255 =>
    have key : ∀ n v, belowPowAt n a b p q i = some v → v = belowPowExact strict a b p q i := by
      intro n v hv
      have := belowPowAt_sound n a b p q i hp hpq (by omega) (by omega) v hv
      cases v
      · have := this.2 rfl
        cases strict <;> simp [belowPowExact] <;> omega
      · have := this.1 rfl
        cases strict <;> simp [belowPowExact] <;> omega
    rcases h1 : belowPowAt 12 a b p q i with _ | v
    · rcases h2 : belowPowAt 48 a b p q i with _ | v
      · rcases h3 : belowPowAt 200 a b p q i with _ | v
        · rfl
        · simpa using key _ _ h3
      · simpa using key _ _ h2
    · simpa using key _ _ h1

/-! ### The search -/

/-- The greatest `v ≤ d` with `holds v`, for a property that holds of every smaller positive number too. -/
theorem greatestBelow_spec (holds : Nat → Bool) (d : Nat) (mono : ∀ u v, 0 < u → u ≤ v → v ≤ d → holds v → holds u)
    (k : Nat) : ∀ v, v ≤ d → (v = 0 ∨ holds v) → (∀ w, v + 2 ^ k ≤ w → w ≤ d → ¬ holds w) →
      greatestBelow holds d k v ≤ d ∧ (greatestBelow holds d k v = 0 ∨ holds (greatestBelow holds d k v)) ∧
      ∀ w, greatestBelow holds d k v < w → w ≤ d → ¬ holds w := by
  induction k with
  | zero =>
    intro v hv hh hn
    exact ⟨hv, hh, fun w hw hwd => hn w (by simp [greatestBelow] at hw ⊢; omega) hwd⟩
  | succ k ih =>
    intro v hv hh hn
    unfold greatestBelow
    split
    · next h =>
      simp only [Bool.and_eq_true, decide_eq_true_eq] at h
      exact ih _ h.1 (.inr h.2) fun w hw hwd => hn w (by rw [pow_succ]; omega) hwd
    · next h =>
      simp only [Bool.and_eq_true, decide_eq_true_eq, not_and] at h
      refine ih _ hv hh fun w hw hwd hhw => h (by omega) ?_
      exact mono _ _ (by positivity) hw hwd hhw

/-! ### The real power -/

/-- The comparison in integers is the comparison of `p/q` with the real power `(i/255)^(a/b)`. -/
theorem belowPowExact_iff (strict : Bool) (a b p q i : Nat) (hq : 0 < q) (hb : 0 < b) :
    belowPowExact strict a b p q i = true ↔
      if strict then (p : ℝ) / q < ((i : ℝ) / 255) ^ ((a : ℝ) / b) else (p : ℝ) / q ≤ ((i : ℝ) / 255) ^ ((a : ℝ) / b) := by
  have hb' : (b : ℝ) ≠ 0 := by exact_mod_cast hb.ne'
  have hx : (0 : ℝ) ≤ ((i : ℝ) / 255) ^ ((a : ℝ) / b) := by positivity
  have hr : (0 : ℝ) ≤ (p : ℝ) / q := by positivity
  have hpow : (((i : ℝ) / 255) ^ ((a : ℝ) / b)) ^ b = ((i : ℝ) / 255) ^ a := by
    rw [← Real.rpow_natCast, ← Real.rpow_mul (by positivity), div_mul_cancel₀ _ hb', Real.rpow_natCast]
  have hlt : (p : ℝ) / q < ((i : ℝ) / 255) ^ ((a : ℝ) / b) ↔ p ^ b * 255 ^ a < i ^ a * q ^ b := by
    rw [← pow_lt_pow_iff_left₀ hr hx hb.ne', hpow, div_pow, div_pow, div_lt_div_iff₀ (by positivity) (by positivity)]
    exact_mod_cast Iff.rfl
  have hle : (p : ℝ) / q ≤ ((i : ℝ) / 255) ^ ((a : ℝ) / b) ↔ p ^ b * 255 ^ a ≤ i ^ a * q ^ b := by
    rw [← pow_le_pow_iff_left₀ hr hx hb.ne', hpow, div_pow, div_pow, div_le_div_iff₀ (by positivity) (by positivity)]
    exact_mod_cast Iff.rfl
  cases strict
  · simp [belowPowExact, hle]
  · simp [belowPowExact, hlt]

/-- A positive rational is its numerator over its denominator, both positive. -/
theorem ratio_of_pos (g : ℚ) (hg : 0 < g) : 0 < g.num.toNat ∧ (g : ℝ) = (g.num.toNat : ℝ) / g.den := by
  have h1 : 0 < g.num := Rat.num_pos.2 hg
  refine ⟨by omega, ?_⟩
  have h2 : ((g.num.toNat : ℤ) : ℝ) = (g.num : ℝ) := by rw [Int.toNat_of_nonneg h1.le]
  rw [Rat.cast_def]
  congr 1
  exact_mod_cast h2.symm

/-- Where `scaledPow` stands: the real number `d · (i/255)^g` lies between its half-integers, with the boundary on the
side `strict` says. -/
theorem scaledPow_spec (strict : Bool) (d i : Nat) (g : ℚ) (hd : d ≤ 255) (hi : i ≤ 255) (hg : 0 < g) (v : Nat)
    (hv : 0 < v) (hvd : v ≤ d) :
    v ≤ scaledPow strict d i g ↔
      if strict then (v : ℝ) - 1 / 2 < d * ((i : ℝ) / 255) ^ (g : ℝ) else (v : ℝ) - 1 / 2 ≤ d * ((i : ℝ) / 255) ^ (g : ℝ) := by
  obtain ⟨ha, hgr⟩ := ratio_of_pos g hg
  have hb : 0 < g.den := g.den_pos
  have hpt : ∀ u : Nat, 0 < u → u ≤ d →
      (belowPow strict g.num.toNat g.den (2 * u - 1) (2 * d) i = true ↔
        if strict then (u : ℝ) - 1 / 2 < d * ((i : ℝ) / 255) ^ (g : ℝ)
        else (u : ℝ) - 1 / 2 ≤ d * ((i : ℝ) / 255) ^ (g : ℝ)) := by
    intro u hu hud
    rw [belowPow_eq_exact strict _ _ _ _ _ (by omega) (by omega) hi ha hb,
      belowPowExact_iff strict _ _ _ _ _ (by omega) hb, ← hgr]
    have hd' : (0 : ℝ) < d := by exact_mod_cast (by omega : 0 < d)
    have hcast : ((2 * u - 1 : Nat) : ℝ) / ((2 * d : Nat) : ℝ) = ((u : ℝ) - 1 / 2) / d := by
      rw [Nat.cast_sub (by omega)]; push_cast; field_simp
    rw [hcast, div_lt_iff₀ hd', div_le_iff₀ hd', mul_comm]
  have mono : ∀ u w, 0 < u → u ≤ w → w ≤ d →
      (belowPow strict g.num.toNat g.den (2 * w - 1) (2 * d) i = true) →
      (belowPow strict g.num.toNat g.den (2 * u - 1) (2 * d) i = true) := by
    intro u w hu huw hwd hw
    rw [hpt w (by omega) hwd] at hw
    rw [hpt u hu (by omega)]
    have : (u : ℝ) ≤ w := by exact_mod_cast huw
    cases strict
    · simp only [Bool.false_eq_true, if_false] at hw ⊢; linarith
    · simp only [if_true] at hw ⊢; linarith
  have hs := greatestBelow_spec (fun v => belowPow strict g.num.toNat g.den (2 * v - 1) (2 * d) i) d mono 8 0
    (Nat.zero_le _) (.inl rfl) (fun w hw hwd => by omega)
  change _ ↔ _
  rw [← hpt v hv hvd]
  unfold scaledPow
  constructor
  · intro h
    rcases hs.2.1 with h0 | h1
    · omega
    · exact mono v _ hv h hs.1 h1
  · intro h
    by_contra hlt
    exact hs.2.2 v (by omega) hvd h

theorem scaledPow_le (strict : Bool) (d i : Nat) (g : ℚ) : scaledPow strict d i g ≤ d := by
  have : ∀ (holds : Nat → Bool) k v, v ≤ d → greatestBelow holds d k v ≤ d := by
    intro holds k
    induction k with
    | zero => intro v hv; exact hv
    | succ k ih =>
      intro v hv
      unfold greatestBelow
      split
      · next h => simp only [Bool.and_eq_true, decide_eq_true_eq] at h; exact ih _ h.1
      · exact ih _ hv
  exact this _ _ _ (Nat.zero_le _)

theorem unit_pow_bounds (i : Nat) (g : ℚ) (hi : i ≤ 255) (hg : 0 < g) :
    0 ≤ ((i : ℝ) / 255) ^ (g : ℝ) ∧ ((i : ℝ) / 255) ^ (g : ℝ) ≤ 1 := by
  have hi' : (i : ℝ) ≤ 255 := by exact_mod_cast hi
  have hg' : (0 : ℝ) ≤ g := by exact_mod_cast hg.le
  exact ⟨by positivity, Real.rpow_le_one (by positivity) (by rw [div_le_one (by norm_num)]; exact hi') hg'⟩

/-- The rounded power is the real floor of rules R71, R72 and R74. -/
theorem scaledPow_floor (d i : Nat) (g : ℚ) (hd : d ≤ 255) (hi : i ≤ 255) (hg : 0 < g) :
    (scaledPow false d i g : ℤ) = ⌊1 / 2 + (d : ℝ) * ((i : ℝ) / 255) ^ (g : ℝ)⌋ := by
  obtain ⟨h0, h1⟩ := unit_pow_bounds i g hi hg
  set x := ((i : ℝ) / 255) ^ (g : ℝ) with hx
  have hle := scaledPow_le false d i g
  symm
  rw [Int.floor_eq_iff]
  constructor
  · rcases Nat.eq_zero_or_pos (scaledPow false d i g) with hz | hz
    · rw [hz]; push_cast; positivity
    · have := (scaledPow_spec false d i g hd hi hg _ hz hle).1 le_rfl
      simp only [Bool.false_eq_true, if_false, ← hx] at this
      push_cast; linarith
  · rcases Nat.lt_or_ge (scaledPow false d i g) d with hlt | hge
    · have := (scaledPow_spec false d i g hd hi hg (scaledPow false d i g + 1) (by omega) hlt).not.1 (by omega)
      simp only [Bool.false_eq_true, if_false, ← hx, not_le] at this
      push_cast at this ⊢; linarith
    · have : scaledPow false d i g = d := le_antisymm hle hge
      rw [this]; push_cast
      have : (d : ℝ) * x ≤ d := by nlinarith [(Nat.cast_nonneg d : (0 : ℝ) ≤ d)]
      linarith

/-- The strict form is the real ceiling that a falling curve of rule R72 needs. -/
theorem scaledPow_ceil (d i : Nat) (g : ℚ) (hd : d ≤ 255) (hi : i ≤ 255) (hg : 0 < g) :
    (-(scaledPow true d i g : ℤ)) = ⌊1 / 2 - (d : ℝ) * ((i : ℝ) / 255) ^ (g : ℝ)⌋ := by
  obtain ⟨h0, h1⟩ := unit_pow_bounds i g hi hg
  set x := ((i : ℝ) / 255) ^ (g : ℝ) with hx
  have hle := scaledPow_le true d i g
  symm
  rw [Int.floor_eq_iff]
  constructor
  · rcases Nat.lt_or_ge (scaledPow true d i g) d with hlt | hge
    · have := (scaledPow_spec true d i g hd hi hg (scaledPow true d i g + 1) (by omega) hlt).not.1 (by omega)
      simp only [if_true, ← hx, not_lt] at this
      push_cast at this ⊢; linarith
    · have : scaledPow true d i g = d := le_antisymm hle hge
      rw [this]; push_cast
      have : (d : ℝ) * x ≤ d := by nlinarith [(Nat.cast_nonneg d : (0 : ℝ) ≤ d)]
      linarith
  · rcases Nat.eq_zero_or_pos (scaledPow true d i g) with hz | hz
    · rw [hz]; push_cast
      have : 0 ≤ (d : ℝ) * x := by positivity
      linarith
    · have := (scaledPow_spec true d i g hd hi hg _ hz hle).1 le_rfl
      simp only [if_true, ← hx] at this
      push_cast; linarith

end Sys2Proof.Machine
end

