-- ==== Sys2Proof/Laws/Session.lean ====
section
/-! SUPPORT. OPEN: its checks, and the bytes of its all-off frame (rules R110, R140, R143, R144); and that the invariant
reads the session, the pins, the parameters and the memories only. -/

namespace Sys2Proof.Machine

/-- OPEN passes its five checks exactly in a closed block with legal operands (rule R140). -/
theorem openCheck_eq_none (s : State) (hw : Bool) (n p : Nat) :
    openCheck s hw n p = none ↔ s.opened = false ∧ s.OpenOk hw n p := by
  unfold openCheck State.OpenOk
  cases s.opened <;> cases hw <;> simp <;> (repeat' split) <;> simp <;> omega

/-- The off word has ones in its control byte only (rule R110). -/
theorem pack_offRgb_getLsbD (b : Nat) (h : b < 32) : (pack offRgb).getLsbD b = decide (24 ≤ b) := by
  revert b
  decide

theorem dataBits_off (s : State) (p b : Nat) (h : b < 32) :
    dataBits s (fun _ _ => pack offRgb) p b = if 24 ≤ b then allMasks s else 0 := by
  unfold dataBits allMasks
  simp only [pack_offRgb_getLsbD b h, decide_eq_true_eq]
  split
  · rfl
  · induction strandsBelow s.S <;> simp_all

/-- The closed form of an all-off pixel region (rule R110). -/
theorem regionByte_off (s : State) (a : Nat) :
    regionByte s (fun _ _ => pack offRgb) a = allOffByte s.HW s.CLK (allMasks s) a := by
  unfold regionByte allOffByte latchByte bps
  cases s.HW
  · have e : (24 ≤ 31 - a % 64 / 2) = (a % 64 < 16) := propext (by omega)
    have h : a % 64 % 2 = a % 2 := by omega
    simp [dataBits_off s _ (31 - a % 64 / 2) (by omega), e, h]
    split <;> simp
  · have e : (24 ≤ 31 - a % 32) = (a % 32 < 8) := propext (by omega)
    simp [dataBits_off s _ (31 - a % 32) (by omega), e]

/-- The canonical form of the memories, one by one. -/
theorem State.memWf_iff (s : State) : s.memWf = true ↔ Memory.Wf outUnlisted s.out ∧ Memory.Wf curaUnlisted s.cura ∧
    Memory.Wf pixUnlisted s.pix ∧ Memory.Wf remapUnlisted s.remap := by
  simp only [State.memWf, Memory.wf, Bool.and_eq_true, decide_eq_true_eq, and_assoc]

/-- The invariant reads these fields only. -/
theorem State.Inv.congr (s t : State) (h : s.Inv) (hc : t.cfg = s.cfg) (hpin : t.pinmap = s.pinmap)
    (hpix : t.pix = s.pix) (hr : t.remap = s.remap) (ho : t.opened = s.opened) (hS : t.S = s.S) (hP : t.P = s.P)
    (hH : t.HW = s.HW) (hout : t.out = s.out) (hcura : t.cura = s.cura) : t.Inv := by
  obtain ⟨a, b, c, d1, d2, d3, d4, d5, d6⟩ := h
  refine ⟨hc ▸ a, fun k => ?_, ?_, ?_⟩
  · unfold State.pin
    rw [hpin]
    exact b k
  · simpa only [State.memWf, hpix, hr, hout, hcura] using c
  · refine ⟨?_, ?_, ?_, ?_, ?_, ?_⟩ <;> simp only [ho, hS, hP, hH, hc, hout, hcura, State.L, State.BPS, State.NSLOT,
      State.CLK, hpin]
    · exact d1
    · exact d2
    · exact d3
    · exact d4
    · exact d5
    · exact d6

/-- An operation that leaves the block Closed and its session empty keeps the invariant. -/
theorem State.Inv.of_closed (s t : State) (h : s.Inv) (hc : t.cfg = s.cfg) (hpin : t.pinmap = s.pinmap)
    (hpix : t.pix = s.pix) (hr : t.remap = s.remap) (ho : t.opened = false) (hS : t.S = 0) (hP : t.P = 0)
    (hH : t.HW = false) (hout : t.out = []) (hcura : t.cura = []) : t.Inv := by
  obtain ⟨a, b, c, -⟩ := h
  rw [State.memWf_iff] at c
  refine ⟨hc ▸ a, fun k => ?_, ?_, ?_⟩
  · unfold State.pin
    rw [hpin]
    exact b k
  · rw [State.memWf_iff, hout, hcura, hpix, hr]
    exact ⟨Memory.nil_wf _, Memory.nil_wf _, c.2.2⟩
  · refine ⟨fun _ => ⟨hS, hP, hH, hout, hcura⟩, ?_, ?_, ?_, ?_, ?_⟩ <;> simp [ho, hout, hcura]

end Sys2Proof.Machine
end

