-- ==== Sys2Proof/Machine/Assembly.lean ====
section
/-! DEFINITION. The textual form of the operations (rule R64), with the operand registers the text shows (rules R16, R58). -/

namespace Sys2Proof.Machine

/-- A number in hexadecimal, `0x…`. -/
def hexText (n : Nat) : String := "0x" ++ String.ofList (Nat.toDigits 16 n)

/-- A presence operand of ENCODE: its name, or `-` for none. -/
def presenceText (present : Bool) (name : String) : String := if present then name else "-"

/-- One triple of GAMMA_RANGE; the exponent is shown as its bit pattern. -/
def tripleText (range : BitVec 48) (farg : Vector (BitVec 64) 3) (c : Channel) : String :=
  "(" ++ toString (rangeMin range c).toNat ++ "," ++ toString (rangeMax range c).toNat ++ "," ++
    hexText (farg.get c).toNat ++ ")"

/-- The line of rule R64 for an operation, with the operands that `FARG` and `RANGE` of the state hold. -/
def assemblyLine (s : State) (i : Instr) : String :=
  match i with
  | .openSession hw n ppix =>
    "OPEN " ++ toString n ++ ", " ++ toString ppix ++ ", " ++ (if hw then "hwclk" else "swclk")
  | .closeSession => "CLOSE"
  | .gammaSimple => "GAMMA_SIMPLE " ++ hexText (s.farg.get 0).toNat
  | .gammaRange =>
    "GAMMA_RANGE " ++ tripleText s.range s.farg 0 ++ ", " ++ tripleText s.range s.farg 1 ++ ", " ++
      tripleText s.range s.farg 2
  | .gammaOff => "GAMMA_OFF"
  | .setPin idx mask => "SET_PIN " ++ toString idx ++ ", " ++ hexText mask.toNat
  | .encodeFrame st map pix =>
    "ENCODE " ++ presenceText pix "pix" ++ ", " ++ presenceText map "map" ++ ", " ++ presenceText st "st"

end Sys2Proof.Machine
end

