-- ==== Sys2Proof/Tests/Slice0.lean ====
section
/-! SUPPORT. Tests of the model against words and vectors of the spec (`95_test_vectors.md`), and for each statement with
hypotheses a witness that meets them. `T-…` names the vector; where none is named the numbers are worked out by hand from
the rule cited. -/

namespace Sys2Proof.Tests

open Sys2Proof.Machine

/-! ### Small states -/

/-- XCFG of `95_test_vectors.md`. -/
def xcfg : Config := Config.legalWitness.val

/-- Reset under XCFG. -/
def s0 : State := State.resetOf xcfg

/-- The outcome is a next state that passes the check. -/
def nextIs (o : Host.Outcome State Fault Refusal) (p : State → Bool) : Bool :=
  match o with
  | .next t => p t
  | .fault _ => false
  | .refused _ => false

/-- The outcome is this refusal. -/
def refusedWith (k : Refusal) (o : Host.Outcome State Fault Refusal) : Bool :=
  match o with
  | .next _ => false
  | .fault _ => false
  | .refused r => r == k

/-- An open hardware-clock session of two strands of one pixel, identity gamma, red and blue (T-E1). -/
def hw2 : State :=
  { s0 with opened := true, S := 2, P := 1, HW := true, gamma := identityTable,
            pix := [(0, 0xFF0000), (1, 0x0000FF)], pixlen := 2 }

/-- An open software-clock session of one strand of one red pixel, identity gamma, with its trailer (T-E2). -/
def sw1 : State :=
  State.latch { s0 with opened := true, S := 1, P := 1, HW := false, gamma := identityTable,
                        pix := [(0, 0xFF0000)], pixlen := 1 }

/-- An open hardware-clock session of two strands of two pixels with a remap table (T-E9). -/
def hw22 : State :=
  { s0 with opened := true, S := 2, P := 2, HW := true, gamma := identityTable,
            pix := [(0, 0x0000FF), (1, 0x00FF00)], pixlen := 2, remap := [(0, 1), (1, 1), (2, 0), (3, 1)] }

/-- `hw2` with a remap table: slot 0 disconnected, slot 1 logical pixel 0. -/
def hw2Map : State := { hw2 with remap := [(0, 0xFFFFFFFE), (1, 0)] }

/-- `s` with these exponents. -/
def withExponents (s : State) (a b c : BitVec 64) : State := { s with farg := #v[a, b, c] }

/-- A command as the host's next action, with the draws in place. -/
def given (s : State) (w : Word) : State := { s with pending := [.command w s.env] }

/-! ### Well-formedness: an ill-formed term for each check -/

theorem test_wf_open_strands : (Instr.openSession true 256 1).wellFormed = false := by decide
theorem test_wf_open_pixels : (Instr.openSession true 1 65536).wellFormed = false := by decide
theorem test_wf_set_pin_index : (Instr.setPin 256 1).wellFormed = false := by decide
theorem test_wf_limits : (Instr.openSession true 255 65535).wellFormed = true ∧ (Instr.setPin 255 0).wellFormed = true ∧
    Instr.closeSession.wellFormed = true ∧ Instr.gammaSimple.wellFormed = true ∧ Instr.gammaRange.wellFormed = true ∧
    Instr.gammaOff.wellFormed = true ∧ (Instr.encodeFrame true true true).wellFormed = true := by decide

/-! ### Decoding: words written bit by bit (T-D1, T-D2; rules R60, R61) -/

/-- op 0001, mbz 000, hw 1, n 00001000, ppix all ones. -/
theorem test_decode_open :
    decode 0b0001_000_1_00001000_1111111111111111 = .ok (.openSession true 8 65535) := by decide
/-- op 0001, mbz 000, hw 0, n 11111111, ppix 0. -/
theorem test_decode_open_out_of_range :
    decode 0b0001_000_0_11111111_0000000000000000 = .ok (.openSession false 255 0) := by decide
theorem test_decode_close : decode 0b0010_0000000000000000000000000000 = .ok .closeSession := by decide
theorem test_decode_gamma_simple : decode 0b0011_0000000000000000000000000000 = .ok .gammaSimple := by decide
theorem test_decode_gamma_range : decode 0b0100_0000000000000000000000000000 = .ok .gammaRange := by decide
theorem test_decode_gamma_off : decode 0b0101_0000000000000000000000000000 = .ok .gammaOff := by decide
/-- op 0110, mbz, idx 00000111, mask 01000000. -/
theorem test_decode_set_pin : decode 0b0110_000000000000_00000111_01000000 = .ok (.setPin 7 0x40) := by decide
/-- op 0111, mbz, st 0, map 1, pix 1. -/
theorem test_decode_encode : decode 0b0111_0000000000000000000000000_0_1_1 = .ok (.encodeFrame false true true) := by decide
/-- op 0111, mbz, st 1, map 0, pix 0. -/
theorem test_decode_encode_stats :
    decode 0b0111_0000000000000000000000000_1_0_0 = .ok (.encodeFrame true false false) := by decide
/-- T-D2, the illegal words. -/
theorem test_decode_illegal :
    ([0x00000000, 0x80000000, 0xF0000000, 0xFFFFFFFF, 0x12010019, 0x20000001, 0x30000001, 0x48000000, 0x50000100,
      0x60010214, 0x70000008] : List Word).all (fun w => (decode w).toOption == none) = true := by decide
/-- T-D3, the raw strand counts. -/
theorem test_open_raw : encode (openRaw 1 25) = 0x10010019 ∧ encode (openRaw 7 4) = 0x10070004 ∧
    encode (openRaw 9 25) = 0x11010019 ∧ encode (openRaw 16 4) = 0x11080004 ∧ encode (openRaw 8 25) = 0x11000019 ∧
    encode (openRaw 17 25) = 0x11090019 := by decide
/-- Rule R65, the other two pseudo-operations. -/
theorem test_pseudo_words : encode allOff = 0x70000000 ∧ encode gammaIdent = 0x50000000 := by decide

/-- Rule R64, the lines as T-D1 writes them. -/
theorem test_assembly : assemblyLine s0 (.openSession false 1 25) = "OPEN 1, 25, swclk" ∧
    assemblyLine s0 (.setPin 2 0x14) = "SET_PIN 2, 0x14" ∧
    assemblyLine s0 (.encodeFrame true false true) = "ENCODE pix, -, st" := by decide +kernel

/-! ### Words and currents -/

/-- T-P1, four rows. -/
theorem test_pack : pack { r := 64, g := 128, b := 192 } = 0xC6C08040 ∧ pack { r := 63, g := 64, b := 127 } = 0xEB7F403F ∧
    pack { r := 0x12, g := 0x34, b := 0x56 } = 0xEF563412 ∧ pack { r := 200, g := 100, b := 50 } = 0xF83264C8 := by decide
/-- T-C1, three rows. -/
theorem test_current : current xcfg.cal { r := 255, g := 255, b := 255 } = 167 / 5 ∧
    current xcfg.cal { r := 0, g := 64, b := 253 } = 408308419 / 16581375 ∧
    current xcfg.cal { r := 18, g := 52, b := 86 } = 2080211474543921 / 160288544140625 := by decide +kernel

/-! ### One step of each operation -/

/-- T-O1 and T-E7: `OPEN 2, 1, hwclk` leaves the all-off frame `03 ×8 | 00 ×24` and a trailer of zeros. -/
theorem test_open : nextIs (exec (.openSession true 2 1) s0) (fun t =>
    t.opened && decide (t.S = 2) && decide (t.L = 64) && decide (t.status = .ok) && decide (t.cura = []) &&
    decide (outRun t.out 0 64 = List.replicate 8 3 ++ List.replicate 56 0)) = true := by decide +kernel
/-- T-O1: the checks, in their order. -/
theorem test_open_refused : (([(false, 0, 25), (true, 9, 25), (false, 8, 25), (true, 1, 0), (true, 0, 1025)] :
      List (Bool × Nat × Nat)).all (fun o =>
        nextIs (exec (.openSession o.1 o.2.1 o.2.2) s0) fun t => !t.opened && t.status == .invalidParameter) &&
    nextIs (exec (.openSession true 1 1025) s0) fun t => !t.opened && t.status == .allocationFailure) = true := by
  decide +kernel
/-- T-O4: CLOSE keeps `PINMAP` and `GAMMA`. -/
theorem test_close : nextIs (exec .closeSession sw1) (fun t =>
    !t.opened && decide (t.S = 0) && decide (t.P = 0) && decide (t.out = []) && decide (t.pinmap = s0.pinmap) &&
    decide (t.gamma.entry 1 200 = 200) && decide (t.status = .ok)) = true := by decide +kernel
/-- T-G2, entries of the exponent 2. -/
theorem test_gamma_simple : nextIs (exec .gammaSimple (withExponents s0 0x4000000000000000 0 0)) (fun t =>
    decide (t.gamma.entry 0 11 = 0) && decide (t.gamma.entry 1 12 = 1) && decide (t.gamma.entry 2 128 = 64) &&
    decide (t.gamma.entry 0 145 = 82) && decide (t.gamma.entry 0 254 = 253) && decide (t.gamma.entry 0 255 = 255)) = true := by
  decide +kernel
/-- T-G6: refused exponents (both zeros, −1, both infinities, a NaN). -/
theorem test_gamma_simple_refused :
    ([0, 0x8000000000000000, 0xBFF0000000000000, 0x7FF0000000000000, 0xFFF0000000000000, 0x7FF8000000000000] :
      List (BitVec 64)).all (fun g =>
        nextIs (exec .gammaSimple (withExponents hw2 g 0 0)) fun t =>
          t.status == .invalidParameter && t.gamma.entry 0 77 == 77) = true := by decide +kernel
/-- T-G7: a rising, a square and a falling channel. -/
theorem test_gamma_range : nextIs (exec .gammaRange
      { withExponents s0 0x3FF0000000000000 0x4000000000000000 0x3FF0000000000000 with range := 0x00FFFF00C80A })
    (fun t => decide (t.gamma.entry 0 0 = 10) && decide (t.gamma.entry 0 129 = 106) && decide (t.gamma.entry 0 255 = 200) &&
      decide (t.gamma.entry 1 129 = 65) && decide (t.gamma.entry 2 2 = 253) && decide (t.gamma.entry 2 255 = 0)) = true := by
  decide +kernel
/-- T-G8: `max < min` with the exponent 1/2. -/
theorem test_gamma_range_falling : nextIs (exec .gammaRange
      { withExponents s0 0x3FE0000000000000 0x3FE0000000000000 0x3FE0000000000000 with range := 0x0AC80AC80AC8 })
    (fun t => decide (t.gamma.entry 0 1 = 188) && decide (t.gamma.entry 1 64 = 105) && decide (t.gamma.entry 2 127 = 66) &&
      decide (t.gamma.entry 2 128 = 65) && decide (t.gamma.entry 0 254 = 10)) = true := by
  decide +kernel
/-- T-X2. -/
theorem test_gamma_off : nextIs (exec .gammaOff s0) (fun t =>
    decide (t.gamma.entry 0 0 = 0) && decide (t.gamma.entry 1 200 = 200) && decide (t.gamma.entry 2 255 = 255)) = true := by
  decide +kernel
/-- T-S1, `SET_PIN 0, 0x14`. -/
theorem test_set_pin : nextIs (exec (.setPin 0 0x14) s0) (fun t =>
    decide (t.pin 0 = 0x14) && decide (t.pin 1 = 2) && decide (t.status = .ok)) = true := by decide +kernel
/-- P3 step 3: only the trailer follows the new clock mask. -/
theorem test_set_pin_clock : nextIs (exec (.setPin 7 0x40) sw1) (fun t =>
    decide (t.CLK = 0x40) && decide (outRun t.out 0 64 = outRun sw1.out 0 64) &&
    decide (outRun t.out 64 64 = (List.replicate 32 [0, 0x40]).flatten)) = true := by decide +kernel
/-- T-E9: two strands of two positions, where slot `k·P + p` and slot `p·S + k` differ (rule R33). -/
theorem test_encode : nextIs (exec (.encodeFrame false true true) hw22) (fun t =>
    decide (t.status = .ok) && decide (t.cura = [(0, 21), (1, 21), (2, 21), (3, 21)]) &&
    decide (outRun t.out 0 32 = [3, 3, 1, 1, 2, 2, 3, 3] ++ List.replicate 8 2 ++ List.replicate 8 1 ++ List.replicate 8 0) &&
    decide (outRun t.out 32 32 = [3, 3, 3, 3, 0, 0, 3, 3] ++ List.replicate 8 0 ++ List.replicate 8 3 ++
      List.replicate 8 0) && decide (outRun t.out 64 32 = List.replicate 32 0)) = true := by decide +kernel
/-- The record after a first frame of 64 bits that took 16 µs at time 777 and draws 21. -/
def firstRecord : Stats :=
  { Stats.zero with
    frames := 1, bits := 64, bitsTotal := 64, bps := 4000000, bpsAvg := 4000000, usecIo := 16, usecIoTotal := 16,
    ma := 21, maPeak := 21, lastTime := 777 }

/-- T-E2, with the statistics of a first frame: `bits = 128/2`, and period figures untouched (rules R121, R125). -/
theorem test_encode_stats : nextIs (exec (.encodeFrame true false true)
      { sw1 with env := { Env.initial with ioUsec := 16, tNow := 777 } }) (fun t =>
    decide (outRun t.out 0 64 = (List.replicate 6 [1, 0x81] ++ List.replicate 18 [0, 0x80] ++
      List.replicate 8 [1, 0x81]).flatten) && decide (outRun t.out 64 64 = (List.replicate 32 [0, 0x80]).flatten) &&
    decide (t.stats = firstRecord)) = true := by decide +kernel

/-- T-ST1, frame 2: its record from the record after frame 1, `Σ CURA = 25`. -/
theorem test_statistics_second_frame :
    (({ frames := 1, bits := 832, bitsTotal := 832, bps := 832000, bpsAvg := 832000, usecIo := 1000, usecIoTotal := 1000,
        usecFrame := 0, usecFrameTotal := 0, fps := 0, fpsAvg := 0, ma := 525, maPeak := 525, maAvg := 0, mah := 0,
        mahTotal := 0, lastTime := 5000000 } : Stats).update 832 2000 5020000 25 ==
      { frames := 2, bits := 832, bitsTotal := 1664, bps := 416000, bpsAvg := 1664000 / 3, usecIo := 2000,
        usecIoTotal := 3000, usecFrame := 20000, usecFrameTotal := 20000, fps := 50, fpsAvg := 50, ma := 25, maPeak := 525,
        maAvg := 525, mah := 7 / 2400, mahTotal := 7 / 2400, lastTime := 5020000 }) = true := by decide +kernel

/-! ### Witnesses: each statement with hypotheses, met by a concrete state and operands

Several clauses of one statement have one conjunct each, at the boundary of their range where there is one. -/

/-- For `EncodeRendersTheFrame` and `WaveformDecodesToTheWord`: two strands of two positions; the word of strand 1 at
position 0 is that of slot 2, blue, and the word of strand 0 at position 1 that of slot 1, green (T-E9). -/
theorem test_witness_slot_order : hw22.FrameOk true true ∧ (1 < hw22.S.val ∧ 1 < hw22.P ∧ hw22.pin 1 ≠ 0 ∧ hw22.maskAlone 1) ∧
    hw22.slotWord true true 2 = 0xCFFF0000 ∧ hw22.slotWord true true 1 = 0xF300FF00 ∧
    nextIs (exec (.encodeFrame false true true) hw22) (fun t =>
      decide (decodeWord t.HW false t.out (t.pin 1) 0 = 0xCFFF0000) &&
      decide (decodeWord t.HW false t.out (t.pin 0) 1 = 0xF300FF00)) = true := by
  refine ⟨(frameLegal_iff _ _ _).1 (by decide +kernel), ?_, ?_, ?_, ?_⟩
  · unfold State.maskAlone
    decide +kernel
  all_goals decide +kernel

theorem test_frame_ok : hw2.FrameOk false true ∧ hw2Map.FrameOk true true ∧ sw1.FrameOk false true ∧
    hw2.FrameOk false false :=
  ⟨(frameLegal_iff _ _ _).1 (by decide +kernel), (frameLegal_iff _ _ _).1 (by decide +kernel),
    (frameLegal_iff _ _ _).1 (by decide +kernel), (frameLegal_iff _ _ _).1 (by decide +kernel)⟩

theorem test_hw2_session : hw2.SessionInv where
  closed := fun h => absurd h (by decide)
  strands := fun _ => by decide
  pixels := fun _ => by decide +kernel
  outLen := by decide
  curaLen := by decide
  trailer := fun _ => by decide +kernel

theorem test_sw1_session : sw1.SessionInv where
  closed := fun h => absurd h (by decide)
  strands := fun _ => by decide
  pixels := fun _ => by decide +kernel
  outLen := by decide +kernel
  curaLen := by decide +kernel
  trailer := fun _ => by decide +kernel

theorem test_s0_session : s0.SessionInv where
  closed := fun _ => by decide
  strands := fun h => absurd h (by decide)
  pixels := fun h => absurd h (by decide)
  outLen := by decide
  curaLen := by decide
  trailer := fun h => absurd h (by decide)

/-- The invariant holds in a closed state, in an open hardware-clock one and in an open software-clock one. -/
theorem test_invariant : s0.Inv ∧ hw2.Inv ∧ sw1.Inv :=
  ⟨⟨Config.legalWitness.property, by decide +kernel, by decide +kernel, test_s0_session⟩,
    ⟨Config.legalWitness.property, by decide +kernel, by decide +kernel, test_hw2_session⟩,
    ⟨Config.legalWitness.property, by decide +kernel, by decide +kernel, test_sw1_session⟩⟩

/-- For `DecodeOfEncodeIsTheInstruction`, at both ends of the operand ranges. -/
theorem test_witness_decode_of_encode : ([.openSession true 255 65535, .openSession false 0 0, .setPin 255 0xFF, .setPin 0 0,
    .encodeFrame true true true] : List Instr).all Instr.wellFormed = true := by decide

/-- For `EncodeOfDecodeIsTheWord` and the first clause of `DecoderIsTheOpcodeTable`. -/
theorem test_witness_decodes : decode 0x11FFFFFF = .ok (.openSession true 255 65535) ∧
    decode 0x6000FFFF = .ok (.setPin 255 0xFF) ∧ decode 0x70000007 = .ok (.encodeFrame true true true) := by decide

/-- For the second clause of `DecoderIsTheOpcodeTable`, both sides. -/
theorem test_witness_not_decoded : decode 0x80000000 = .error (.reservedOpcode 8) ∧
    ∀ r ∈ opcodeRows, r.selects 0x80000000 = false := by decide

theorem test_witness_illegal_word : (given hw2 0x90000000).pending = [.command 0x90000000 Env.initial] ∧
    decode 0x90000000 = .error (.reservedOpcode 9) := ⟨rfl, by decide⟩

theorem test_witness_step_runs : (given hw2 0x20000000).pending = [.command 0x20000000 Env.initial] ∧
    decode 0x20000000 = .ok .closeSession := ⟨rfl, by decide⟩

/-- For `HostWritesOfRegisters` and `HostWritesOfMemories`: a state for each action. -/
theorem test_witness_host_writes : hw2.pending = [] ∧
    ({ hw2 with pending := [.writeFarg 2 1] } : State).pending = .writeFarg 2 1 :: [] ∧
    ({ hw2 with pending := [.writeRange 1] } : State).pending = .writeRange 1 :: [] ∧
    ({ hw2 with pending := [.writePixlen 1] } : State).pending = .writePixlen 1 :: [] ∧
    ({ hw2 with pending := [.writeStats Stats.zero] } : State).pending = .writeStats Stats.zero :: [] ∧
    ({ hw2 with pending := [.writePix 0 0xFF010203] } : State).pending = .writePix 0 0xFF010203 :: [] ∧
    ({ hw2 with pending := [.writeRemap 1 0xFFFFFFFF] } : State).pending = .writeRemap 1 0xFFFFFFFF :: [] :=
  ⟨rfl, rfl, rfl, rfl, rfl, rfl, rfl⟩

/-- For `HostReadsNeedAnElement`: the last element that exists and the first that does not, while Open and while Closed; a
`CURA` element with a value and one without. -/
theorem test_witness_host_reads :
    (hw2.opened = true ∧ 63 < hw2.L ∧ ¬ 64 < hw2.L) ∧ (hw2.opened = true ∧ 1 < hw2.NSLOT ∧ ¬ 2 < hw2.NSLOT) ∧
    ¬ (s0.opened = true ∧ 0 < s0.L) ∧ ¬ (s0.opened = true ∧ 0 < s0.NSLOT) ∧
    Memory.find hw2.cura 1 = none ∧ Memory.find ({ hw2 with cura := [(1, 5)] } : State).cura 1 ≠ none ∧
    ({ hw2 with pending := [.readOut 63] } : State).pending = .readOut 63 :: [] ∧
    ({ hw2 with pending := [.readCura 1] } : State).pending = .readCura 1 :: [] ∧
    ({ s0 with pending := [.readStatus] } : State).pending = .readStatus :: [] ∧
    ({ s0 with pending := [.readStats] } : State).pending = .readStats :: [] := by
  refine ⟨?_, ?_, ?_, ?_, ?_, ?_, rfl, rfl, rfl, rfl⟩ <;> decide

/-- For `ResetSatisfiesTheInvariant`. -/
theorem test_witness_legal_parameters : xcfg.Legal := Config.legalWitness.property

/-- For `StepKeepsTheInvariant`: a CLOSE of an open block. -/
theorem test_witness_step_keeps : (given sw1 0x20000000).Inv ∧ nextIs (step (given sw1 0x20000000)) (fun t => !t.opened) = true :=
  ⟨test_invariant.2.2.congr sw1 _ rfl rfl rfl rfl rfl rfl rfl rfl rfl rfl, by decide +kernel⟩

/-- For `EachElementHasItsWriters`: every element does change under some operation. -/
theorem test_witness_writers :
    nextIs (exec (.openSession true 2 1) s0) (fun t => t.opened && t.out != s0.out && t.handed != s0.handed) = true ∧
    nextIs (exec .closeSession sw1) (fun t => t.P != sw1.P && t.out != sw1.out) = true ∧
    nextIs (exec (.setPin 0 0x14) hw2) (fun t => t.pinmap != hw2.pinmap) = true ∧
    nextIs (exec (.setPin 7 0x40) sw1) (fun t => t.out != sw1.out) = true ∧
    nextIs (exec .gammaOff { hw2 with gamma := xcfg.gammaDefault }) (fun t => t.gamma != xcfg.gammaDefault) = true ∧
    nextIs (exec (.encodeFrame true false true) hw2) (fun t => t.cura != hw2.cura && t.stats != hw2.stats) = true := by
  refine ⟨?_, ?_, ?_, ?_, ?_, ?_⟩ <;> decide +kernel

/-- For `SessionIsImmutableWhileOpen`. -/
theorem test_witness_stays_open : hw2.opened = true ∧ nextIs (exec (.setPin 7 0x40) hw2) State.opened = true := by decide +kernel

/-- For `OnlyABackwardsClockStopsAnOperation`: a clock one microsecond behind. -/
theorem test_witness_clock_back : refusedWith .clockStepsBack (exec (.encodeFrame true false true)
      { hw2 with stats := { Stats.zero with frames := 1, lastTime := 1 } }) = true := by decide +kernel

/-- For `GammaSimpleInstallsTheRealCurve`, `GammaTableProperties` and `LegalExponentsAreFiniteAndPositive`: the smallest and
the largest legal exponent, the exponents 1, 2 and 1/2, and the patterns next to them that are not legal. -/
theorem test_witness_exponents :
    fargLegal 1 = true ∧ fargLegal 0x7FEFFFFFFFFFFFFF = true ∧ fargLegal 0x3FF0000000000000 = true ∧
    fargLegal 0x4000000000000000 = true ∧ fargLegal 0x3FE0000000000000 = true ∧ fargLegal 0 = false ∧
    fargLegal 0x7FF0000000000000 = false ∧ fargLegal 0x8000000000000001 = false ∧
    (withExponents s0 1 0 0).farg.get 0 = 1 ∧ (withExponents s0 0 0 0).farg.get 0 = 0 := by decide

/-- For `LegalExponentsAreFiniteAndPositive`: 2.2 rounded to binary64, whose fraction is not 0; its fields by hand from rule
R58, its value from section 0 of `95_test_vectors.md`. -/
theorem test_witness_exponent_value :
    (0x400199999999999A : BitVec 64).getLsbD 63 = false ∧ ((0x400199999999999A : BitVec 64).extractLsb' 52 11).toNat = 1024 ∧
    ((0x400199999999999A : BitVec 64).extractLsb' 0 52).toNat = 0x199999999999A ∧
    fargLegal 0x400199999999999A = true ∧ fargValue 0x400199999999999A = 2476979795053773 / 1125899906842624 := by
  decide +kernel

/-- For `GammaTableProperties` and `GammaRangeStaysBetweenItsEnds`: the operations do answer a next state there. -/
theorem test_witness_gamma_next :
    nextIs (exec .gammaSimple (withExponents s0 0x4000000000000000 0 0)) (fun t => t.status == .ok) = true ∧
    nextIs (exec .gammaSimple (withExponents s0 0x3FE0000000000000 0 0)) (fun t => t.status == .ok) = true ∧
    nextIs (exec .gammaOff s0) (fun t => t.status == .ok) = true ∧
    nextIs (exec .gammaRange (withExponents s0 1 1 0x7FEFFFFFFFFFFFFF)) (fun t => t.status == .ok) = true := by
  decide +kernel

/-- For `GammaRangeInstallsTheRealCurves` and `GammaRangeStaysBetweenItsEnds`: three legal exponents; one illegal among
three; a channel that rises, one that is constant and one that falls. -/
theorem test_witness_range :
    (∀ c, fargLegal ((withExponents s0 1 1 0x7FEFFFFFFFFFFFFF).farg.get c) = true) ∧
    fargLegal ((withExponents s0 0x3FF0000000000000 0xBFF0000000000000 0x3FF0000000000000).farg.get 1) = false ∧
    ((0x00FF0707FF00 : BitVec 48).extractLsb' 0 8 = 0x00 ∧ (0x00FF0707FF00 : BitVec 48).extractLsb' 8 8 = 0xFF) ∧
    ((0x00FF0707FF00 : BitVec 48).extractLsb' 16 8 = 0x07 ∧ (0x00FF0707FF00 : BitVec 48).extractLsb' 24 8 = 0x07) ∧
    ((0x00FF0707FF00 : BitVec 48).extractLsb' 32 8 = 0xFF ∧ (0x00FF0707FF00 : BitVec 48).extractLsb' 40 8 = 0x00) := by
  decide

/-- For `SetPinStoresTheMask`: the last legal index and the first illegal one, a mask and none, Open and Closed. -/
theorem test_witness_set_pin : (7 : Strand).val = 7 ∧ 7 < 8 ∧ 255 < 256 ∧ (1 : Byte) ≠ 0 ∧
    (7 = 7 ∧ sw1.opened = true) ∧ ¬ (7 = 7 ∧ s0.opened = true) ∧ ¬ (6 = 7 ∧ sw1.opened = true) ∧
    (sw1.P * sw1.BPS ≤ 64 ∧ 127 < sw1.L) ∧ ¬ (sw1.P * sw1.BPS ≤ 63) ∧ ¬ (128 < sw1.L) := by decide

/-- For `SlotWordAndCurrent`: each kind of entry, in each order of the checks. -/
theorem test_witness_slot :
    (-2 : Int) = (hw2Map.remapAt 0).toInt ∧ (0 : Int) = (hw2Map.remapAt 1).toInt ∧
    (-1 : Int) = (({ hw2 with remap := [(0, 0xFFFFFFFF)] } : State).remapAt 0).toInt ∧
    (2147483647 : Int) = (({ hw2 with remap := [(0, 0x7FFFFFFF)] } : State).remapAt 0).toInt := by decide

/-- For `CurrentModelProperties`. -/
theorem test_witness_legal_calibration : xcfg.cal.Legal := Config.legalWitness.property.2.2.2

/-- For `OpenChecksItsOperands`: what each check refuses, next to what it lets pass. -/
theorem test_witness_open_checks : hw2.opened = true ∧ s0.opened = false ∧ 8 < 9 ∧ s0.cfg.pMax < 1025 ∧
    s0.OpenOk true 8 1024 ∧ s0.OpenOk false 7 1 ∧ s0.OpenOk true 1 1 ∧ ¬ s0.OpenOk false 8 1 := by
  unfold State.OpenOk
  decide

/-- `s0` with a transport that answers OPEN with `k`. -/
def transportAnswers (k : OpenOutcome) : State := { s0 with env := { Env.initial with openOutcome := k } }

/-- For `OpenFailureUnwinds`: a closed block whose transport fails, in each way. -/
theorem test_witness_open_failures (k : OpenOutcome) : (transportAnswers k).SessionInv ∧ (transportAnswers k).opened = false ∧
    (transportAnswers k).OpenOk true 2 1 ∧ (transportAnswers k).env.openOutcome = k :=
  have h := test_s0_session
  have ok : s0.OpenOk true 2 1 := by
    unfold State.OpenOk
    decide
  ⟨⟨h.closed, h.strands, h.pixels, h.outLen, h.curaLen, h.trailer⟩, rfl, ok, rfl⟩

/-- For `OpenCreatesASession`, `CuraHasNoValuesAfterOpen`, `OpenForgetsTheGammaTable` and `RawStrandCount`. -/
theorem test_witness_open : s0.opened = false ∧ s0.OpenOk true 2 1 ∧ s0.env.openOutcome = .good ∧ 1 < 2 * 1 ∧
    1 ≤ s0.cfg.pMax ∧
    nextIs (exec (.openSession true 2 1) s0) (fun t => t.status.isFailure == false) = true ∧
    nextIs (exec (.openSession true 0 1) s0) (fun t => t.status.isFailure) = true := by
  refine ⟨rfl, by unfold State.OpenOk; decide, rfl, by decide, by decide, ?_, ?_⟩ <;> decide +kernel

/-- `s0` with a transport that reports this warning. -/
def transportWarns (k : OpenWarning) : State := { s0 with env := { Env.initial with warn := k } }

/-- For the three answers of `OpenCreatesASession` and `RawStrandCount` (T-O2): STATUS 0, 6 and 7, Open each time. -/
theorem test_witness_open_warnings :
    nextIs (exec (.openSession true 2 2) (transportWarns .none)) (fun t => t.opened && t.status.code == 0) = true ∧
    nextIs (exec (.openSession true 2 2) (transportWarns .divisorWarning)) (fun t => t.opened && t.status.code == 6) = true ∧
    nextIs (exec (.openSession true 2 2) (transportWarns .baudRateWarning)) (fun t => t.opened && t.status.code == 7) = true := by
  decide +kernel

/-- For `CloseEndsTheSession`. -/
theorem test_witness_close : hw2.opened = true ∧ s0.opened = false ∧ nextIs (exec .closeSession hw2) (fun _ => true) = true := by
  decide +kernel

/-- For `EncodeChecksFirst`: Closed; a logical index at `PIXLEN`; a reserved entry (T-E11). -/
theorem test_witness_refused_frames : ¬ s0.FrameOk false false ∧ ¬ ({ hw2 with pixlen := 1 } : State).FrameOk false true ∧
    ¬ ({ hw2 with remap := [(0, 0), (1, 0xFFFFFFFD)] } : State).FrameOk true false :=
  ⟨fun h => absurd ((frameLegal_iff _ _ _).2 h) (by decide +kernel),
    fun h => absurd ((frameLegal_iff _ _ _).2 h) (by decide +kernel),
    fun h => absurd ((frameLegal_iff _ _ _).2 h) (by decide +kernel)⟩

/-- For `EncodeUpdatesTheRecord` and the statements that take an ENCODE with a next state: a first frame, and a later one
at the very time of the one before. -/
theorem test_witness_encode :
    (0 < hw2.stats.frames → hw2.stats.lastTime ≤ hw2.env.tNow) ∧
    nextIs (exec (.encodeFrame false false true) hw2) (fun t => t.status == .ok) = true ∧
    nextIs (exec (.encodeFrame true false true) hw2) (fun t => t.stats.frames == 1) = true ∧
    nextIs (exec (.encodeFrame true false true) { hw2 with stats := { Stats.zero with frames := 1 } })
      (fun t => t.stats.frames == 2) = true := by
  refine ⟨fun h => absurd h (by decide), ?_, ?_, ?_⟩ <;> decide +kernel

/-- For `WaveformDecodesToTheWord`: the last strand and position of each session, with `test_hw2_session` and
`test_sw1_session` for its trailer. -/
theorem test_witness_round_trip : (1 < hw2.S.val ∧ 0 < hw2.P ∧ hw2.pin 1 ≠ 0 ∧ hw2.maskAlone 1) ∧
    (0 < sw1.S.val ∧ 0 < sw1.P ∧ sw1.pin 0 ≠ 0 ∧ sw1.maskAlone 0) ∧ sw1.pin 0 &&& sw1.CLK = 0 := by
  unfold State.maskAlone
  decide +kernel

/-- For `FramesCarryNothingOver`: another `OUT`, another `CURA`. -/
theorem test_witness_other_buffers : nextIs (exec (.encodeFrame true false true)
      { hw2 with out := [(0, 0xFF), (63, 1)], cura := [(1, 7)] }) (fun t => t.status == .ok) = true := by decide +kernel

/-- For `RepeatedEncodeIsStable`: the second ENCODE. -/
theorem test_witness_second_encode : nextIs (exec (.encodeFrame true false true) hw2) (fun t =>
    nextIs (exec (.encodeFrame false false true) t) fun u => u.status == .ok) = true := by decide +kernel

/-- For `FrameWithoutPixelsIsAllOff`. -/
theorem test_witness_all_off : nextIs (exec (.encodeFrame false false false) hw2) (fun t => t.status == .ok) = true := by
  decide +kernel

/-- For `UnusedPinsStayLow`: bit 7 in `hw2`; in `sw1` bit 6, since bit 7 is the clock. -/
theorem test_witness_unused_pin :
    (∀ k : Strand, k.val < hw2.S.val → (hw2.pin k).getLsbD 7 = false) ∧
    (∀ k : Strand, k.val < sw1.S.val → (sw1.pin k).getLsbD 6 = false) ∧ sw1.HW = false ∧ sw1.CLK.getLsbD 6 = false := by
  decide +kernel

/-- For `TransmitFailureKeepsTheFrame`. -/
theorem test_witness_transmit : hw2.env.txOk = true ∧ hw2.FrameOk false true := ⟨rfl, test_frame_ok.1⟩

/-- For `RatesAreZeroNotGarbage`: a first frame, and a second one without I/O time and without a period (T-ST2). -/
theorem test_witness_rates : (hw2.stats.frames = 0 → hw2.stats = Stats.zero) ∧
    nextIs (exec (.encodeFrame true false true) { hw2 with stats := { Stats.zero with frames := 1 } }) (fun t =>
      t.stats.usecIo == 0 && t.stats.usecFrame == 0 && t.stats.usecFrameTotal == 0 && t.stats.usecIoTotal == 0) = true :=
  ⟨fun _ => rfl, by decide +kernel⟩

/-- For `CountersNeverDecrease`. -/
theorem test_witness_counters : hw2.cfg.Legal ∧ 0 ≤ hw2.stats.ma ∧
    nextIs (exec (.encodeFrame true false true) hw2) (fun t => t.stats.frames == 1) = true :=
  ⟨Config.legalWitness.property, by decide +kernel, by decide +kernel⟩

end Sys2Proof.Tests
end

section
/-! The step on a command word, and the host's reads. -/

namespace Sys2Proof.Machine

/-- A legal command word runs its instruction on the state that has accepted the word (rules R16, R59). -/
theorem issueCommand_of_decode_ok {w : Word} {i : Instr} (hw : decode w = .ok i) (env : Env) (s : State) :
    issueCommand w env s = exec i (s.accept w env) := by
  unfold issueCommand
  rw [hw]

/-- One step is the whole operation of a legal command word (rule R8); the step lemma behind both clauses of O6. -/
theorem step_of_pending_command {s : State} {w : Word} {env : Env} {rest : List HostAction} {i : Instr}
    (hs : s.pending = .command w env :: rest) (hw : decode w = .ok i) :
    step s = exec i { s with pending := rest, cw := w, env := env } := by
  rw [step_of_pending_cons s _ rest hs]
  exact issueCommand_of_decode_ok hw env _

/-- A 32-bit word placed by `withFetchWord` stands at the head of the list as it is: the reduction modulo `2 ^ 32` loses
nothing. -/
theorem State.withFetchWord_pending_toNat (s : State) (w : Word) :
    (s.withFetchWord 32 w.toNat).pending = .command w s.env :: s.pending := by
  rw [State.withFetchWord_pending, Nat.mod_eq_of_lt w.isLt, BitVec.ofNat_toNat, BitVec.setWidth_eq]

/-- Settles O6: a step takes the command off the list, and a word placed by `withFetchWord` is the head of that list. -/
theorem stepRunsTheDecodedInstruction : Obligations.StepRunsTheDecodedInstruction := by
  intro s w env rest i hw
  constructor
  · intro hs
    exact step_of_pending_command hs hw
  · exact step_of_pending_command (s.withFetchWord_pending_toNat w) hw

/-! ### Reads of `OUT` and `CURA` -/

/-- An existing byte of `OUT` is read (rule R19). -/
theorem State.outAt_of_exists {s : State} {a : Nat} (h : s.opened = true ∧ a < s.L) :
    s.outAt a = .ok (outByte s.out a) :=
  if_pos (by simpa using h)

/-- There is no byte of `OUT` while Closed, nor at `L` or above (rule R19). -/
theorem State.outAt_of_absent {s : State} {a : Nat} (h : ¬ (s.opened = true ∧ a < s.L)) :
    s.outAt a = .error (.outAbsent a) :=
  if_neg (by simpa using h)

/-- A read of an existing element of `CURA` turns on whether it holds a value (rule R20). -/
theorem State.curaAt_of_exists {s : State} {i : Nat} (h : s.opened = true ∧ i < s.NSLOT) :
    s.curaAt i = (s.cura.find i).elim (.error (.curaNoValue i)) .ok := by
  unfold State.curaAt
  rw [if_pos (by simpa using h)]
  cases s.cura.find i <;> rfl

/-- There is no element of `CURA` while Closed, nor at `S·P` or above (rule R20). -/
theorem State.curaAt_of_absent {s : State} {i : Nat} (h : ¬ (s.opened = true ∧ i < s.NSLOT)) :
    s.curaAt i = .error (.curaAbsent i) :=
  if_neg (by simpa using h)

/-- The step of a read of `OUT`; `State.outAt` does not look at the host's list. -/
theorem step_of_pending_readOut {s : State} {a : Nat} {rest : List HostAction} (hs : s.pending = .readOut a :: rest) :
    step s = hostRead (s.outAt a) { s with pending := rest } :=
  step_of_pending_cons s _ rest hs

/-- The step of a read of `CURA`; `State.curaAt` does not look at the host's list. -/
theorem step_of_pending_readCura {s : State} {i : Nat} {rest : List HostAction} (hs : s.pending = .readCura i :: rest) :
    step s = hostRead (s.curaAt i) { s with pending := rest } :=
  step_of_pending_cons s _ rest hs

/-- Settles O9: the step of a read is `hostRead` of the element, and each case of the element gives its outcome. -/
theorem hostReadsNeedAnElement : Obligations.HostReadsNeedAnElement := by
  intro s rest a
  refine ⟨fun hs => ⟨fun h => ?_, fun h => ?_⟩, fun hs => ⟨fun h hv => ?_, fun h hv => ?_, fun h => ?_⟩,
    fun hs => ?_, fun hs => ?_⟩
  · rw [step_of_pending_readOut hs, State.outAt_of_exists h, hostRead_ok]
  · rw [step_of_pending_readOut hs, State.outAt_of_absent h, hostRead_error]
  · obtain ⟨c, hc⟩ := Option.ne_none_iff_exists'.1 hv
    rw [step_of_pending_readCura hs, State.curaAt_of_exists h, hc, Option.elim_some, hostRead_ok]
  · rw [step_of_pending_readCura hs, State.curaAt_of_exists h, hv, Option.elim_none, hostRead_error]
  · rw [step_of_pending_readCura hs, State.curaAt_of_absent h, hostRead_error]
  · exact step_of_pending_cons s _ rest hs
  · exact step_of_pending_cons s _ rest hs

end Sys2Proof.Machine
end

section
/-! What an operation can do: one case a kind of effect, from which the statements about all operations follow. -/

namespace Sys2Proof.Machine

/-! ### Each operation's effect -/

/-- The state a successful OPEN leaves (rule R142): the session registers, the trailer, the all-off frame and its write. -/
def State.opensTo (s : State) (hw : Bool) (n ppix : Nat) : State :=
  (s.allocate hw n ppix).latch.renderAllOff.transmit.finishOpen

/-- The state a complete frame leaves (rule R115): rendered, handed over, the record `r` and the transport's answer. -/
def State.framesTo (s : State) (map pix : Bool) (r : Stats) : State :=
  { (s.renderFrame map pix).transmit with stats := r, status := txStatus s.env.txOk }

/-- The next states each operation may answer from `s` (the operations column of rule R10). -/
inductive Effect (s : State) : Instr → State → Prop
  /-- Only `STATUS` is written: a failed check, or CLOSE on a Closed block (rules R150, R161). -/
  | statusOnly (i : Instr) (k : Status) : Effect s i (s.done k)
  /-- OPEN fails in the transport and unwinds; `handed` is what the transport was handed until then (rule R146). -/
  | openFails (hw : Bool) (n ppix : Nat) (k : Status) (handed : List (List Byte)) (closed : s.opened = false)
      (ok : s.OpenOk hw n ppix) :
      Effect s (.openSession hw n ppix) { s.unwind with status := k, handed := handed }
  | opens (hw : Bool) (n ppix : Nat) (closed : s.opened = false) (ok : s.OpenOk hw n ppix) :
      Effect s (.openSession hw n ppix) (s.opensTo hw n ppix)
  | closes : Effect s .closeSession (s.unwind.done .ok)
  | setsGamma (i : Instr) (g : GammaTable) (gammaOp : i = .gammaSimple ∨ i = .gammaRange ∨ i = .gammaOff) :
      Effect s i ((s.setGamma g).done .ok)
  | setsPin (k : Strand) (mask : Byte) (nonzero : mask ≠ 0) (noTrailer : ¬ (k = 7 ∧ s.opened = true)) :
      Effect s (.setPin k.val mask) ((s.setPin k mask).done .ok)
  /-- SET_PIN of the clock entry while Open renders the trailer again (rule R91). -/
  | movesClock (mask : Byte) (nonzero : mask ≠ 0) (opened : s.opened = true) :
      Effect s (.setPin 7 mask) ((s.setPin 7 mask).latch.done .ok)
  | encodes (st map pix : Bool) (r : Stats) (legal : s.frameLegal map pix = true) (kept : st = false → r = s.stats) :
      Effect s (.encodeFrame st map pix) (s.framesTo map pix r)

/-- OPEN after its checks, by the transport's answer (rules R141, R142, R146). -/
theorem openSequence_effect (s : State) (hw : Bool) (n ppix : Nat) (closed : s.opened = false)
    (ok : s.OpenOk hw n ppix) : Effect s (.openSession hw n ppix) (s.allocate hw n ppix).openSequence := by
  unfold State.openSequence
  split
  · exact .openFails hw n ppix _ s.handed closed ok
  · exact .openFails hw n ppix _ s.handed closed ok
  · exact .openFails hw n ppix _ _ closed ok
  · exact .opens hw n ppix closed ok

theorem execOpen_effect {s t : State} {hw : Bool} {n ppix : Nat} (h : execOpen hw n ppix s = .next t) :
    Effect s (.openSession hw n ppix) t := by
  unfold execOpen at h
  cases h
  split
  · exact .statusOnly _ _
  · next hc =>
    obtain ⟨closed, ok⟩ := (openCheck_eq_none s hw n ppix).1 hc
    exact openSequence_effect s hw n ppix closed ok

theorem execClose_effect {s t : State} (h : execClose s = .next t) : Effect s .closeSession t := by
  unfold execClose at h
  cases h
  split
  · exact .closes
  · exact .statusOnly _ _

theorem execSetPin_effect {s t : State} {idx : Nat} {mask : Byte} (h : execSetPin idx mask s = .next t) :
    Effect s (.setPin idx mask) t := by
  unfold execSetPin State.assignPin at h
  cases h
  split
  · next hidx =>
    split
    · exact .statusOnly _ _
    · next hmask =>
      split
      · next hclk =>
        obtain ⟨rfl, ho⟩ : idx = 7 ∧ s.opened = true := ⟨congrArg Fin.val hclk.1, hclk.2⟩
        exact .movesClock mask hmask ho
      · next hclk => exact .setsPin ⟨idx, hidx⟩ mask hmask hclk
  · exact .statusOnly _ _

/-- A gamma operation behind its check of the exponents sets the table or fails (rule R70). -/
theorem gamma_effect (s : State) (i : Instr) (b : Bool) (g : GammaTable)
    (gammaOp : i = .gammaSimple ∨ i = .gammaRange ∨ i = .gammaOff) :
    Effect s i (if b then (s.setGamma g).done .ok else s.raise .invalidParameter) := by
  split
  · exact .setsGamma i g gammaOp
  · exact .statusOnly i _

theorem execEncode_effect {s t : State} {st map pix : Bool} (h : execEncode st map pix s = .next t) :
    Effect s (.encodeFrame st map pix) t := by
  by_cases legal : s.frameLegal map pix = true
  · cases st
    · rw [execEncode_off, if_pos legal] at h
      cases h
      exact .encodes false map pix s.stats legal fun _ => rfl
    · obtain ⟨r, rfl⟩ := execEncode_next_of_legal s t true map pix h legal
      exact .encodes true map pix r legal fun hst => nomatch hst
  · rw [execEncode_of_not_legal s st map pix legal] at h
    cases h
    exact .statusOnly _ _

/-- Whatever next state an operation answers, it is one of its effects. -/
theorem exec_effect {i : Instr} {s t : State} (h : exec i s = .next t) : Effect s i t := by
  cases i with
  | openSession hw n ppix => exact execOpen_effect h
  | closeSession => exact execClose_effect h
  | gammaSimple => cases h; exact gamma_effect s _ _ _ (.inl rfl)
  | gammaRange => cases h; exact gamma_effect s _ _ _ (.inr (.inl rfl))
  | gammaOff => cases h; exact .setsGamma _ _ (.inr (.inr rfl))
  | setPin idx mask => exact execSetPin_effect h
  | encodeFrame st map pix => exact execEncode_effect h

/-! ### Completion -/

/-- Every operation but ENCODE with statistics answers a next state, from every state (rule R40). -/
theorem exec_completes {i : Instr} (hi : ∀ map pix, i ≠ .encodeFrame true map pix) (s : State) :
    ∃ t, exec i s = .next t := by
  cases i with
  | encodeFrame st map pix =>
    cases st with
    | false => exact ⟨_, execEncode_off map pix s⟩
    | true => exact absurd rfl (hi map pix)
  | openSession => exact ⟨_, rfl⟩
  | closeSession => exact ⟨_, rfl⟩
  | gammaSimple => exact ⟨_, rfl⟩
  | gammaRange => exact ⟨_, rfl⟩
  | gammaOff => exact ⟨_, rfl⟩
  | setPin => exact ⟨_, rfl⟩

/-- OPEN from a Closed block with legal operands and a transport that answers (rule R142). -/
theorem execOpen_good {s : State} {hw : Bool} {n ppix : Nat} (closed : s.opened = false) (ok : s.OpenOk hw n ppix)
    (good : s.env.openOutcome = .good) : execOpen hw n ppix s = .next (s.opensTo hw n ppix) := by
  unfold execOpen State.openSequence
  rw [(openCheck_eq_none s hw n ppix).2 ⟨closed, ok⟩]
  simp only [State.allocate_env, good]
  rfl

/-! ### The session of a block just opened -/

@[simp] theorem State.opensTo_opened (s : State) (hw : Bool) (n ppix : Nat) : (s.opensTo hw n ppix).opened = true := rfl
@[simp] theorem State.opensTo_cura (s : State) (hw : Bool) (n ppix : Nat) : (s.opensTo hw n ppix).cura = [] := rfl

theorem ofNat_strands_val {n : Nat} (h : n ≤ 8) : (Fin.ofNat 9 n).val = n := Nat.mod_eq_of_lt (by omega)

theorem State.opensTo_NSLOT (s : State) (hw : Bool) {n : Nat} (ppix : Nat) (h : n ≤ 8) :
    (s.opensTo hw n ppix).NSLOT = n * ppix := congrArg (· * ppix) (ofNat_strands_val h)

end Sys2Proof.Machine
end

section
/-! The invariant of the block is kept by every step (rule R24). -/

namespace Sys2Proof.Machine

/-- The invariant says nothing of the fields listed here: they may hold anything. -/
theorem State.Inv.of_frame {s t : State} (h : s.Inv)
    (ht : t = { s with
      gamma := t.gamma, status := t.status, cw := t.cw, farg := t.farg, range := t.range, pixlen := t.pixlen,
      stats := t.stats, env := t.env, pending := t.pending, handed := t.handed }) : t.Inv := by
  rw [ht]
  exact h.congr _ _ rfl rfl rfl rfl rfl rfl rfl rfl rfl rfl

/-! ### Open blocks, the trailer aside -/

/-- What the invariant says of an Open block but for its trailer: what LATCH needs to make it hold. -/
structure State.Sized (s : State) : Prop where
  config : s.cfg.Legal
  pins : ∀ k : Strand, s.pin k ≠ 0
  memories : s.memWf = true
  strands : 1 ≤ s.S.val ∧ (s.HW = false → s.S.val ≤ 7)
  pixels : 1 ≤ s.P ∧ s.P ≤ s.cfg.pMax
  outLen : ∀ c ∈ s.out, c.1 < s.L
  curaLen : ∀ c ∈ s.cura, c.1 < s.NSLOT

theorem State.Inv.sized {s : State} (h : s.Inv) (ho : s.opened = true) : s.Sized where
  config := h.config
  pins := h.pins
  memories := h.memories
  strands := h.session.strands ho
  pixels := h.session.pixels ho
  outLen := h.session.outLen
  curaLen := h.session.curaLen

theorem State.Sized.inv {s : State} (h : s.Sized) (ho : s.opened = true)
    (trailer : ∀ k < s.BPS, outByte s.out (s.P * s.BPS + k) = latchByte s.HW s.CLK k) : s.Inv where
  config := h.config
  pins := h.pins
  memories := h.memories
  session :=
    { closed := fun hc => absurd (ho.symm.trans hc) (by decide)
      strands := fun _ => h.strands
      pixels := fun _ => h.pixels
      outLen := h.outLen
      curaLen := h.curaLen
      trailer := fun _ => trailer }

/-- The length of `OUT` is that of the pixel region and one more slot, the trailer (rule R12). -/
theorem State.L_eq (s : State) : s.L = s.P * s.BPS + s.BPS := Nat.succ_mul s.P s.BPS

/-- Another `OUT` in canonical form and within its bounds. -/
theorem State.Sized.withOut {s : State} (h : s.Sized) {m : Memory Byte} (wf : Memory.Wf outUnlisted m)
    (bound : ∀ c ∈ m, c.1 < s.L) : ({ s with out := m } : State).Sized where
  config := h.config
  pins := h.pins
  memories := by
    obtain ⟨-, hrest⟩ := s.memWf_iff.1 h.memories
    exact (State.memWf_iff _).2 ⟨wf, hrest⟩
  strands := h.strands
  pixels := h.pixels
  outLen := bound
  curaLen := h.curaLen

/-- Another `CURA` in canonical form and within its bounds. -/
theorem State.Sized.withCura {s : State} (h : s.Sized) {m : Memory Num} (wf : Memory.Wf curaUnlisted m)
    (bound : ∀ c ∈ m, c.1 < s.NSLOT) : ({ s with cura := m } : State).Sized where
  config := h.config
  pins := h.pins
  memories := by
    obtain ⟨hout, -, hrest⟩ := s.memWf_iff.1 h.memories
    exact (State.memWf_iff _).2 ⟨hout, wf, hrest⟩
  strands := h.strands
  pixels := h.pixels
  outLen := h.outLen
  curaLen := bound

theorem State.setPin_pin_ne_zero {s : State} (hp : ∀ k : Strand, s.pin k ≠ 0) (k : Strand) {m : Byte} (hm : m ≠ 0)
    (j : Strand) : (s.setPin k m).pin j ≠ 0 := by
  rw [State.setPin_pin]
  split
  · exact hm
  · exact hp j

theorem State.Sized.setPin {s : State} (h : s.Sized) (k : Strand) {m : Byte} (hm : m ≠ 0) : (s.setPin k m).Sized where
  config := h.config
  pins := State.setPin_pin_ne_zero h.pins k hm
  memories := h.memories
  strands := h.strands
  pixels := h.pixels
  outLen := h.outLen
  curaLen := h.curaLen

/-! ### The operations' parts -/

/-- The trailer after LATCH, with the clock mask of the moment (rule R143). -/
theorem outByte_latch_trailer (s : State) {k : Nat} (hk : k < s.BPS) :
    outByte s.latch.out (s.P * s.BPS + k) = latchByte s.HW s.CLK k := by
  have hL := s.L_eq
  rw [outByte_latch, if_pos (by omega), Nat.add_sub_cancel_left]

/-- A render of the pixel region leaves the trailer (rule R104). -/
theorem outByte_renderOut_trailer (s : State) (word : Strand → Nat → Word) (k : Nat) :
    outByte (renderOut s word) (s.P * s.BPS + k) = outByte s.out (s.P * s.BPS + k) := by
  rw [outByte_renderOut, if_neg (by omega)]

/-- LATCH makes the invariant of an Open block hold. -/
theorem State.Sized.latch_inv {s : State} (h : s.Sized) (ho : s.opened = true) : s.latch.Inv := by
  obtain ⟨hout, -⟩ := s.memWf_iff.1 h.memories
  have hbound : ∀ c ∈ clearSlot s.HW s.CLK s.out s.P, c.1 < s.L := fun c hc =>
    (clearSlot_bound _ _ _ _ c hc).elim (h.outLen c) (fun hlt => s.L_eq ▸ hlt)
  exact (h.withOut (clearSlot_wf _ _ _ _ hout) hbound).inv ho fun _ hk => outByte_latch_trailer s hk

/-- A render of the pixel region keeps the invariant of an Open block. -/
theorem State.Inv.withRenderedOut {s : State} (h : s.Inv) (ho : s.opened = true) (word : Strand → Nat → Word) :
    ({ s with out := renderOut s word } : State).Inv := by
  obtain ⟨hout, -⟩ := s.memWf_iff.1 h.memories
  have hL := s.L_eq
  have hbound : ∀ c ∈ renderOut s word, c.1 < s.L := fun c hc =>
    (renderOut_bound s word c hc).elim (h.session.outLen c) (by omega)
  exact ((h.sized ho).withOut (renderOut_wf s word hout) hbound).inv ho fun k hk =>
    (outByte_renderOut_trailer s word k).trans (h.session.trailer ho k hk)

/-- Phase B of ENCODE keeps the invariant (rule R115). -/
theorem State.Inv.renderFrame {s : State} (h : s.Inv) (ho : s.opened = true) (map pix : Bool) :
    (s.renderFrame map pix).Inv := by
  obtain ⟨-, hcura, -⟩ := s.memWf_iff.1 h.memories
  have hr := h.withRenderedOut ho fun k p => s.slotWord map pix (slotIndex s.P k p)
  have hbound : ∀ c ∈ renderCura s map pix, c.1 < s.NSLOT := fun c hc =>
    (renderCura_bound s map pix c hc).elim (h.session.curaLen c) id
  exact ((hr.sized ho).withCura (renderCura_wf s map pix hcura) hbound).inv ho (hr.session.trailer ho)

/-- A pin other than the clock, or any pin of a Closed block, has no trailer to keep. -/
theorem State.Inv.setPin {s : State} (h : s.Inv) {k : Strand} {m : Byte} (hm : m ≠ 0)
    (hk : ¬ (k = 7 ∧ s.opened = true)) : (s.setPin k m).Inv where
  config := h.config
  pins := State.setPin_pin_ne_zero h.pins k hm
  memories := h.memories
  session :=
    { closed := h.session.closed
      strands := h.session.strands
      pixels := h.session.pixels
      outLen := h.session.outLen
      curaLen := h.session.curaLen
      trailer := fun ho => by
        rw [State.setPin_CLK, if_neg fun hk7 => hk ⟨hk7, ho⟩]
        exact h.session.trailer ho }

/-- The allocated session of an OPEN that passed its checks, taken as Open (rules R140, R142). -/
theorem State.Inv.sized_allocate {s : State} (h : s.Inv) {hw : Bool} {n ppix : Nat} (ok : s.OpenOk hw n ppix) :
    ({ s.allocate hw n ppix with opened := true } : State).Sized := by
  obtain ⟨hn1, hn8, hn7, hp1, hpmax⟩ := ok
  obtain ⟨-, -, hhost⟩ := s.memWf_iff.1 h.memories
  have hS := ofNat_strands_val hn8
  exact
    { config := h.config
      pins := h.pins
      memories := (State.memWf_iff _).2 ⟨Memory.nil_wf _, Memory.nil_wf _, hhost⟩
      strands := ⟨hS.symm ▸ hn1, fun hH => hS.symm ▸ hn7 hH⟩
      pixels := ⟨hp1, hpmax⟩
      outLen := fun _ hc => nomatch hc
      curaLen := fun _ hc => nomatch hc }

/-- A successful OPEN leaves a sound Open block: its LATCH sets the trailer and its all-off frame keeps it. -/
theorem State.Inv.opensTo {s : State} (h : s.Inv) {hw : Bool} {n ppix : Nat} (ok : s.OpenOk hw n ppix) :
    (s.opensTo hw n ppix).Inv :=
  have hr := ((h.sized_allocate ok).latch_inv rfl).withRenderedOut rfl fun _ _ => pack offRgb
  hr.of_frame rfl

/-! ### Operations, host actions, steps -/

/-- Every effect of an operation keeps the invariant. -/
theorem Effect.inv {i : Instr} {s t : State} (he : Effect s i t) (h : s.Inv) : t.Inv := by
  cases he with
  | statusOnly => exact h.of_frame rfl
  | openFails => exact h.of_closed _ _ rfl rfl rfl rfl rfl rfl rfl rfl rfl rfl
  | opens hw n ppix closed ok => exact h.opensTo ok
  | closes => exact h.of_closed _ _ rfl rfl rfl rfl rfl rfl rfl rfl rfl rfl
  | setsGamma => exact h.of_frame rfl
  | setsPin k mask nonzero noTrailer => exact (h.setPin nonzero noTrailer).of_frame rfl
  | movesClock mask nonzero opened =>
    exact (((h.sized opened).setPin 7 nonzero).latch_inv opened).of_frame rfl
  | encodes st map pix r legal kept =>
    obtain ⟨ho, -⟩ := (frameLegal_iff s map pix).1 legal
    exact (h.renderFrame ho map pix).of_frame rfl

/-- A command keeps the invariant, legal or not (rules R59, R62). -/
theorem issueCommand_inv {w : Word} {env : Env} {s t : State} (h : s.Inv) (ht : issueCommand w env s = .next t) :
    t.Inv := by
  have ha : (s.accept w env).Inv := h.of_frame rfl
  unfold issueCommand at ht
  split at ht
  · exact (exec_effect ht).inv ha
  · cases ht
    exact ha.of_frame rfl

/-- The host's write of another `PIX` or `REMAP` in canonical form keeps the invariant (rule R21). -/
theorem State.Inv.withHostMemories {s : State} (h : s.Inv) {p : Memory Pixel} {r : Memory Word}
    (hp : Memory.Wf pixUnlisted p) (hr : Memory.Wf remapUnlisted r) : ({ s with pix := p, remap := r } : State).Inv where
  config := h.config
  pins := h.pins
  memories := by
    obtain ⟨hout, hcura, -, -⟩ := s.memWf_iff.1 h.memories
    exact (State.memWf_iff _).2 ⟨hout, hcura, hp, hr⟩
  session :=
    { closed := h.session.closed
      strands := h.session.strands
      pixels := h.session.pixels
      outLen := h.session.outLen
      curaLen := h.session.curaLen
      trailer := h.session.trailer }

/-- Every action of the host keeps the invariant. -/
theorem hostAct_inv {a : HostAction} {s t : State} (h : s.Inv) (ht : hostAct a s = .next t) : t.Inv := by
  obtain ⟨-, -, hpix, hremap⟩ := s.memWf_iff.1 h.memories
  cases a with
  | command w env => exact issueCommand_inv h ht
  | writeFarg | writeRange | writePixlen | writeStats =>
    cases ht
    exact h.of_frame rfl
  | writePix e c =>
    cases ht
    exact h.withHostMemories (Memory.write_wf _ _ _ _ hpix) hremap
  | writeRemap i v =>
    cases ht
    exact h.withHostMemories hpix (Memory.write_wf _ _ _ _ hremap)
  | readOut | readCura =>
    rw [hostRead_next _ _ _ ht]
    exact h
  | readStatus | readStats =>
    cases ht
    exact h

/-- Settles O12: a step waits or does one action of the host, and each action keeps the invariant. -/
theorem stepKeepsTheInvariant : Obligations.StepKeepsTheInvariant := by
  intro s t h ht
  cases hs : s.pending with
  | nil =>
    rw [step_of_pending_nil s hs] at ht
    cases ht
    exact h
  | cons a rest =>
    rw [step_of_pending_cons s a rest hs] at ht
    have hr : ({ s with pending := rest } : State).Inv := h.of_frame rfl
    exact hostAct_inv hr ht

/-- A Closed block as reset leaves it meets the invariant for every legal configuration (rules R24, R26). -/
theorem State.resetOf_inv {c : Config} (h : c.Legal) : (State.resetOf c).Inv where
  config := h
  pins := by
    obtain ⟨-, -, hpins, -⟩ := h
    exact hpins
  memories := (State.memWf_iff _).2 ⟨Memory.nil_wf _, Memory.nil_wf _, Memory.nil_wf _, Memory.nil_wf _⟩
  session :=
    { closed := fun _ => ⟨rfl, rfl, rfl, rfl, rfl⟩
      strands := fun ho => nomatch ho
      pixels := fun ho => nomatch ho
      outLen := fun _ hc => nomatch hc
      curaLen := fun _ hc => nomatch hc
      trailer := fun ho => nomatch ho }

/-- Settles O11: the parameters of `State.reset` are legal too. -/
theorem resetSatisfiesTheInvariant : Obligations.ResetSatisfiesTheInvariant :=
  ⟨fun _ => State.resetOf_inv, State.resetOf_inv Config.ofInstance.property⟩

end Sys2Proof.Machine
end


section
/-! Who writes each state element, and what no operation reads or raises. -/

namespace Sys2Proof.Machine

/-! ### The writers of each state element (rule R10) -/

section
variable {i : Instr} {s t : State}

/-- No operation writes the host's registers and memories, the parameters, the draws or the host's list. -/
theorem Effect.host_frame (he : Effect s i t) :
    t.cw = s.cw ∧ t.farg = s.farg ∧ t.range = s.range ∧ t.pixlen = s.pixlen ∧ t.pix = s.pix ∧ t.remap = s.remap ∧
      t.cfg = s.cfg ∧ t.env = s.env ∧ t.pending = s.pending := by
  cases he <;> exact ⟨rfl, rfl, rfl, rfl, rfl, rfl, rfl, rfl, rfl⟩

theorem Effect.session_writers (he : Effect s i t)
    (hne : ¬ (t.opened = s.opened ∧ t.S = s.S ∧ t.P = s.P ∧ t.HW = s.HW)) :
    (∃ hw n ppix, i = .openSession hw n ppix) ∨ i = .closeSession := by
  cases he with
  | openFails | opens => exact .inl ⟨_, _, _, rfl⟩
  | closes => exact .inr rfl
  | statusOnly | setsGamma | setsPin | movesClock | encodes => exact absurd ⟨rfl, rfl, rfl, rfl⟩ hne

theorem Effect.pinmap_writers (he : Effect s i t) (hne : t.pinmap ≠ s.pinmap) : ∃ idx mask, i = .setPin idx mask := by
  cases he with
  | setsPin | movesClock => exact ⟨_, _, rfl⟩
  | statusOnly | openFails | opens | closes | setsGamma | encodes => exact absurd rfl hne

theorem Effect.gamma_writers (he : Effect s i t) (hne : t.gamma ≠ s.gamma) :
    i = .gammaSimple ∨ i = .gammaRange ∨ i = .gammaOff ∨ ∃ hw n ppix, i = .openSession hw n ppix := by
  cases he with
  | setsGamma _ _ gammaOp => exact gammaOp.imp_right (Or.imp_right .inl)
  | opens => exact .inr (.inr (.inr ⟨_, _, _, rfl⟩))
  | statusOnly | openFails | closes | setsPin | movesClock | encodes => exact absurd rfl hne

theorem Effect.out_writers (he : Effect s i t) (hne : t.out ≠ s.out) :
    (∃ hw n ppix, i = .openSession hw n ppix) ∨ i = .closeSession ∨ (∃ mask, i = .setPin 7 mask) ∨
      ∃ st map pix, i = .encodeFrame st map pix := by
  cases he with
  | openFails | opens => exact .inl ⟨_, _, _, rfl⟩
  | closes => exact .inr (.inl rfl)
  | movesClock => exact .inr (.inr (.inl ⟨_, rfl⟩))
  | encodes => exact .inr (.inr (.inr ⟨_, _, _, rfl⟩))
  | statusOnly | setsGamma | setsPin => exact absurd rfl hne

theorem Effect.cura_writers (he : Effect s i t) (hne : t.cura ≠ s.cura) :
    (∃ hw n ppix, i = .openSession hw n ppix) ∨ i = .closeSession ∨ ∃ st map pix, i = .encodeFrame st map pix := by
  cases he with
  | openFails | opens => exact .inl ⟨_, _, _, rfl⟩
  | closes => exact .inr (.inl rfl)
  | encodes => exact .inr (.inr ⟨_, _, _, rfl⟩)
  | statusOnly | setsGamma | setsPin | movesClock => exact absurd rfl hne

theorem Effect.stats_writers (he : Effect s i t) (hne : t.stats ≠ s.stats) :
    ∃ map pix, i = .encodeFrame true map pix := by
  cases he with
  | encodes st map pix r legal kept =>
    cases st with
    | false => exact absurd (kept rfl) hne
    | true => exact ⟨map, pix, rfl⟩
  | statusOnly | openFails | opens | closes | setsGamma | setsPin | movesClock => exact absurd rfl hne

theorem Effect.handed_writers (he : Effect s i t) (hne : t.handed ≠ s.handed) :
    (∃ hw n ppix, i = .openSession hw n ppix) ∨ ∃ st map pix, i = .encodeFrame st map pix := by
  cases he with
  | openFails | opens => exact .inl ⟨_, _, _, rfl⟩
  | encodes => exact .inr ⟨_, _, _, rfl⟩
  | statusOnly | closes | setsGamma | setsPin | movesClock => exact absurd rfl hne

/-- No effect changes the session registers of a block that was and is Open. -/
theorem Effect.session_fixed (he : Effect s i t) (hs : s.opened = true) (ht : t.opened = true) :
    t.S = s.S ∧ t.P = s.P ∧ t.HW = s.HW := by
  cases he with
  | openFails _ _ _ _ _ closed _ => exact absurd (closed.symm.trans hs) Bool.false_ne_true
  | opens _ _ _ closed _ => exact absurd (closed.symm.trans hs) Bool.false_ne_true
  | closes => exact absurd ht Bool.false_ne_true
  | statusOnly | setsGamma | setsPin | movesClock | encodes => exact ⟨rfl, rfl, rfl⟩

end

/-- Settles O13: each element's writers, effect by effect. -/
theorem eachElementHasItsWriters : Obligations.EachElementHasItsWriters := by
  intro i s t h
  have he := exec_effect h
  exact ⟨he.host_frame, he.session_writers, he.pinmap_writers, he.gamma_writers, he.out_writers, he.cura_writers,
    he.stats_writers, he.handed_writers⟩

/-- Settles O14: OPEN has an effect on a Closed block only, and CLOSE leaves one. -/
theorem sessionIsImmutableWhileOpen : Obligations.SessionIsImmutableWhileOpen :=
  fun _ _ _ h => (exec_effect h).session_fixed

/-! ### What stops an operation -/

/-- The premise of rule R136 fails exactly when a later frame of the record comes before the one before it. -/
theorem Stats.clockRuns_eq_false (r : Stats) (now : Nat) :
    ¬ r.clockRuns now = true ↔ 0 < r.frames ∧ now < r.lastTime := by
  simp [Stats.clockRuns, Nat.pos_iff_ne_zero]

/-- ENCODE with statistics ends in a next state, or is refused because the clock stepped backwards (rule R136). -/
theorem execEncode_on_cases (map pix : Bool) (s : State) :
    (∃ t, execEncode true map pix s = .next t) ∧
        ¬ (s.FrameOk map pix ∧ 0 < s.stats.frames ∧ s.env.tNow < s.stats.lastTime) ∨
      execEncode true map pix s = .refused .clockStepsBack ∧
        s.FrameOk map pix ∧ 0 < s.stats.frames ∧ s.env.tNow < s.stats.lastTime := by
  rw [execEncode_on, ← frameLegal_iff, ← Stats.clockRuns_eq_false]
  split
  · next hl =>
    split
    · next hc => exact .inl ⟨⟨_, rfl⟩, fun h => h.2 hc⟩
    · next hc => exact .inr ⟨rfl, hl, hc⟩
  · next hl => exact .inl ⟨⟨_, rfl⟩, fun h => hl h.1⟩

/-- Settles O16: only ENCODE with statistics can stop, and it does on its clock alone. -/
theorem onlyABackwardsClockStopsAnOperation : Obligations.OnlyABackwardsClockStopsAnOperation := by
  intro i s
  by_cases hi : ∃ map pix, i = .encodeFrame true map pix
  · obtain ⟨map, pix, rfl⟩ := hi
    change (∀ f, execEncode true map pix s ≠ .fault f) ∧ ∀ r, execEncode true map pix s = .refused r ↔ _
    rcases execEncode_on_cases map pix s with ⟨⟨t, ht⟩, hno⟩ | ⟨hr, hback⟩
    · rw [ht]
      refine ⟨fun f => nofun, fun r => ⟨nofun, ?_⟩⟩
      rintro ⟨-, map', pix', hi, hback⟩
      cases hi
      exact absurd hback hno
    · rw [hr]
      refine ⟨fun f => nofun, fun r => ⟨fun h => ?_, fun h => h.1 ▸ rfl⟩⟩
      cases h
      exact ⟨rfl, map, pix, rfl, hback⟩
  · obtain ⟨t, ht⟩ := exec_completes (fun map pix h => hi ⟨map, pix, h⟩) s
    rw [ht]
    refine ⟨fun f => nofun, fun r => ⟨nofun, ?_⟩⟩
    rintro ⟨-, map, pix, h, -⟩
    exact absurd ⟨map, pix, h⟩ hi

/-! ### `STATUS` is not read -/

/-- What OPEN does after its checks does not turn on `STATUS`. -/
theorem State.openSequence_status (s : State) (k : Status) :
    State.openSequence { s with status := k } = s.openSequence := by
  unfold State.openSequence
  dsimp only
  cases s.env.openOutcome <;> rfl

theorem execOpen_status (hw : Bool) (n ppix : Nat) (s : State) (k : Status) :
    execOpen hw n ppix { s with status := k } = execOpen hw n ppix s := by
  have hcheck : openCheck { s with status := k } hw n ppix = openCheck s hw n ppix := rfl
  unfold execOpen
  rw [hcheck]
  cases openCheck s hw n ppix with
  | some c => rfl
  | none => exact congrArg _ ((s.allocate hw n ppix).openSequence_status k)

theorem execClose_status (s : State) (k : Status) : execClose { s with status := k } = execClose s := by
  unfold execClose
  dsimp only
  split <;> rfl

/-- The effect of a legal SET_PIN does not turn on `STATUS`. -/
theorem State.assignPin_status (s : State) (j : Strand) (mask : Byte) (k : Status) :
    (State.assignPin { s with status := k } j mask).done .ok = (s.assignPin j mask).done .ok := by
  unfold State.assignPin
  dsimp only
  split <;> rfl

theorem execSetPin_status (idx : Nat) (mask : Byte) (s : State) (k : Status) :
    execSetPin idx mask { s with status := k } = execSetPin idx mask s := by
  unfold execSetPin
  simp only [State.assignPin_status]
  rfl

/-- Settles O15: each operation ends with its own write of `STATUS`, over checks that look elsewhere. -/
theorem statusIsWrittenAndNeverRead : Obligations.StatusIsWrittenAndNeverRead := by
  intro i s k
  cases i with
  | openSession hw n ppix => exact execOpen_status hw n ppix s k
  | closeSession => exact execClose_status s k
  | gammaSimple => rfl
  | gammaRange => rfl
  | gammaOff => rfl
  | setPin idx mask => exact execSetPin_status idx mask s k
  | encodeFrame st map pix =>
    cases st with
    | false => exact (execEncode_off map pix _).trans (execEncode_off map pix s).symm
    | true => exact (execEncode_on map pix _).trans (execEncode_on map pix s).symm

end Sys2Proof.Machine
end

section
/-! The host's writes, reset, and `CURA` after OPEN. -/

namespace Sys2Proof.Machine

/-- Settles O7: the step of a write is the write. -/
theorem hostWritesOfRegisters : Obligations.HostWritesOfRegisters := by
  intro s rest
  refine ⟨step_of_pending_nil s, fun c v hs => ?_, fun v hs => ?_, fun n hs => ?_, fun r hs => ?_⟩
  · exact step_of_pending_cons s _ rest hs
  · exact step_of_pending_cons s _ rest hs
  · exact step_of_pending_cons s _ rest hs
  · exact step_of_pending_cons s _ rest hs

/-- A pixel keeps the low 24 bits of its container (rule R31). -/
theorem containerPixel_eq (c : BitVec 32) : containerPixel c = c.setWidth 24 :=
  (BitVec.setWidth_eq_extractLsb' (by decide)).symm

/-- Read after write in a memory whose unlisted elements are those never written. -/
theorem Memory.find_write_none {α : Type} [DecidableEq α] (m : Memory α) (e : Nat) (v : α) (a : Nat) :
    Memory.find (Memory.write none m e v) a = if a = e then some v else Memory.find m a := by
  simpa using Memory.find_write none m e v a

/-- `PIX` after the host's write of one element (rule R31). -/
theorem State.pixAt_write (s : State) (rest : List HostAction) (e : Nat) (c : BitVec 32) (a : Nat) :
    ({ s with pending := rest, pix := Memory.write pixUnlisted s.pix e (containerPixel c) } : State).pixAt a =
      if a = e then c.setWidth 24 else s.pixAt a := by
  unfold State.pixAt pixUnlisted
  rw [Memory.find_write_none, ← containerPixel_eq]
  split <;> rfl

/-- `REMAP` after the host's write of one element (rule R32). -/
theorem State.remapAt_write (s : State) (rest : List HostAction) (e : Nat) (v : Word) (a : Nat) :
    ({ s with pending := rest, remap := Memory.write remapUnlisted s.remap e v } : State).remapAt a =
      if a = e then v else s.remapAt a := by
  unfold State.remapAt remapUnlisted
  rw [Memory.find_write_none]
  split <;> rfl

/-- Settles O8: read after write in each of the two memories. -/
theorem hostWritesOfMemories : Obligations.HostWritesOfMemories := by
  intro s rest e v
  constructor
  · exact fun hs => ⟨_, step_of_pending_cons s _ rest hs, rfl, s.pixAt_write rest e v⟩
  · exact fun hs => ⟨_, step_of_pending_cons s _ rest hs, rfl, s.remapAt_write rest e v⟩

/-- Settles O10: the reset values, and a Closed block has no element of `OUT` or `CURA`. -/
theorem resetValues : Obligations.ResetValues := by
  intro c s
  have hclosed : ¬ s.opened = true := Bool.false_ne_true
  have hfarg : ∀ k, s.farg.get k = 0 := fun k => by fin_cases k <;> rfl
  exact ⟨rfl, rfl, rfl, rfl, rfl, rfl, hfarg, rfl, rfl, fun _ => rfl, rfl,
    fun a => State.outAt_of_absent fun h => hclosed h.1, fun i => State.curaAt_of_absent fun h => hclosed h.1⟩

/-- Settles O32: OPEN leaves `CURA` with its `S·P` elements and none listed. -/
theorem curaHasNoValuesAfterOpen : Obligations.CuraHasNoValuesAfterOpen := by
  intro s t hw n ppix i rest closed ok good ht hi
  cases (execOpen_good closed ok good).symm.trans ht
  obtain ⟨-, hn8, -⟩ := ok
  have hexists : i < (s.opensTo hw n ppix).NSLOT := (s.opensTo_NSLOT hw ppix hn8).symm ▸ hi
  have hread : (s.opensTo hw n ppix).curaAt i = .error (.curaNoValue i) := by
    rw [State.curaAt_of_exists ⟨s.opensTo_opened hw n ppix, hexists⟩, State.opensTo_cura, Memory.find_nil,
      Option.elim_none]
  calc step { s.opensTo hw n ppix with pending := .readCura i :: rest }
      = hostRead ((s.opensTo hw n ppix).curaAt i) { s.opensTo hw n ppix with pending := rest } :=
        step_of_pending_readCura rfl
    _ = .fault (.curaNoValue i) := by rw [hread, hostRead_error]

end Sys2Proof.Machine
end

section
/-! What ENCODE hands to the transport. -/

namespace Sys2Proof.Machine

/-- A run from address 0 on is the bytes at the addresses below its length, in their order. -/
theorem outRun_zero (m : Memory Byte) (n : Nat) : outRun m 0 n = (List.range n).map (outByte m) := by
  simp only [outRun, Nat.zero_add]

/-- A complete frame hands over the `OUT` it leaves, in one write (rule R111). -/
theorem State.framesTo_handed (s : State) (map pix : Bool) (r : Stats) :
    (s.framesTo map pix r).handed = (List.range s.L).map (outByte (s.framesTo map pix r).out) :: s.handed :=
  congrArg (· :: s.handed) (outRun_zero _ _)

/-- Settles O38: the frame is complete when its checks pass, and only `STATUS` changes when they fail. -/
theorem eachFrameIsOneWrite : Obligations.EachFrameIsOneWrite := by
  intro s t st map pix h
  rw [← frameLegal_iff]
  constructor
  · intro legal
    obtain ⟨r, rfl⟩ := execEncode_next_of_legal s t st map pix h legal
    exact s.framesTo_handed map pix r
  · intro illegal
    cases (execEncode_of_not_legal s st map pix illegal).symm.trans h
    exact s.raise_handed _

end Sys2Proof.Machine
end

section
/-! The command word as a number: what each field reads, and the decoder and the encoder as each other's inverse (rules R59
to R62). -/

namespace Sys2Proof

/-! ### Fields of a command word -/

/-- A field of a word is a digit group of its number (rule R6). -/
theorem cwField_eq (w : Word) (hi lo : Nat) : cwField w hi lo = w.toNat / 2 ^ lo % 2 ^ (hi - lo + 1) := by
  rw [cwField, BitVec.extractLsb_toNat, Nat.shiftRight_eq_div_pow]

/-- One bit of a word as a field of width 1. -/
theorem toNat_getLsbD_eq (w : Word) (k : Nat) : (w.getLsbD k).toNat = w.toNat / 2 ^ k % 2 :=
  Nat.toNat_testBit w.toNat k

/-- A bit is known by its number. -/
theorem getLsbD_eq_of_toNat {w : Word} {k : Nat} {b : Bool} (h : w.toNat / 2 ^ k % 2 = b.toNat) : w.getLsbD k = b := by
  rw [← toNat_getLsbD_eq] at h
  cases b with
  | false => exact Bool.toNat_eq_zero.1 h
  | true => exact Bool.toNat_eq_one.1 h

/-- A field fits its width. -/
theorem cwField_lt (w : Word) (hi lo : Nat) : cwField w hi lo < 2 ^ (hi - lo + 1) := (w.extractLsb hi lo).isLt

/-- A field placed below the bits already set adds its value at its place. -/
theorem toNat_or_cwPlace {x : Word} {width value lo : Nat} (hx : 2 ^ (lo + width) ∣ x.toNat) (hv : value < 2 ^ width)
    (hw : lo + width ≤ 32) : (x ||| cwPlace width value lo).toNat = x.toNat + value * 2 ^ lo := by
  obtain ⟨a, ha⟩ := hx
  have hlt : value * 2 ^ lo < 2 ^ (lo + width) := by
    rw [Nat.add_comm, Nat.pow_add]
    exact Nat.mul_lt_mul_of_pos_right hv (Nat.two_pow_pos lo)
  have hword : 2 ^ (lo + width) ≤ 2 ^ 32 := Nat.pow_le_pow_right two_pos hw
  have hwide : 2 ^ width ≤ 2 ^ 32 := Nat.pow_le_pow_right two_pos (by omega)
  have hplace : (cwPlace width value lo).toNat = value * 2 ^ lo := by
    rw [cwPlace, BitVec.toNat_shiftLeft, BitVec.toNat_setWidth, BitVec.toNat_ofNat, Nat.mod_eq_of_lt hv,
      Nat.mod_eq_of_lt (hv.trans_le hwide), Nat.shiftLeft_eq, Nat.mod_eq_of_lt (hlt.trans_le hword)]
  rw [BitVec.toNat_or, hplace, ha, Nat.two_pow_add_eq_or_of_lt hlt]

/-! ### The encodings as numbers -/

theorem toNat_encode_openSession (hw : Bool) {n ppix : Nat} (hn : n < 2 ^ 8) (hp : ppix < 2 ^ 16) :
    (encode (.openSession hw n ppix)).toNat = 0x10000000 + hw.toNat * 2 ^ 24 + n * 2 ^ 16 + ppix := by
  have h1 : (0x10000000 ||| cwPlace 1 hw.toNat 24 : Word).toNat = 0x10000000 + hw.toNat * 2 ^ 24 :=
    toNat_or_cwPlace (by decide) hw.toNat_lt (by decide)
  have h2 : (0x10000000 ||| cwPlace 1 hw.toNat 24 ||| cwPlace 8 n 16 : Word).toNat =
      0x10000000 + hw.toNat * 2 ^ 24 + n * 2 ^ 16 := by
    rw [toNat_or_cwPlace (by rw [h1]; omega) hn (by decide), h1]
  rw [encode, toNat_or_cwPlace (by rw [h2]; omega) hp (by decide), h2, Nat.pow_zero, Nat.mul_one]

theorem toNat_encode_setPin {idx : Nat} (mask : Byte) (hidx : idx < 2 ^ 8) :
    (encode (.setPin idx mask)).toNat = 0x60000000 + idx * 2 ^ 8 + mask.toNat := by
  have h1 : (0x60000000 ||| cwPlace 8 idx 8 : Word).toNat = 0x60000000 + idx * 2 ^ 8 :=
    toNat_or_cwPlace (by decide) hidx (by decide)
  have h2 : mask.setWidth 32 = cwPlace 8 mask.toNat 0 := by simp [cwPlace]
  rw [encode, h2, toNat_or_cwPlace (by rw [h1]; omega) mask.isLt (by decide), h1, Nat.pow_zero, Nat.mul_one]

theorem toNat_encode_encodeFrame (st map pix : Bool) :
    (encode (.encodeFrame st map pix)).toNat = 0x70000000 + st.toNat * 4 + map.toNat * 2 + pix.toNat := by
  revert st map pix
  decide

/-! ### The decoder, row by row -/

/-- A word selected by a row reads as the row's pattern in every field inside the row's mask. -/
theorem cwField_of_masked {w m p : Word} (hi lo : Nat) (hw : w &&& m = p)
    (hm : m.extractLsb hi lo = BitVec.allOnes (hi - lo + 1)) : cwField w hi lo = cwField p hi lo := by
  have hand : (w &&& m).extractLsb hi lo = w.extractLsb hi lo &&& m.extractLsb hi lo := BitVec.extractLsb_and
  rw [cwField, cwField, ← hw, hand, hm, BitVec.and_allOnes]

theorem decode_of_openSession_row {w : Word} (h : w &&& 0xFE000000 = 0x10000000) :
    decode w = .ok (.openSession (w.getLsbD 24) (cwField w 23 16) (cwField w 15 0)) := by
  have hop : cwField w 31 28 = 1 := cwField_of_masked 31 28 h rfl
  have hzero : cwField w 27 25 = 0 := cwField_of_masked 27 25 h rfl
  rw [decode, hop]
  exact if_pos hzero

theorem decode_of_setPin_row {w : Word} (h : w &&& 0xFFFF0000 = 0x60000000) :
    decode w = .ok (.setPin (cwField w 15 8) (w.extractLsb 7 0)) := by
  have hop : cwField w 31 28 = 6 := cwField_of_masked 31 28 h rfl
  have hzero : cwField w 27 16 = 0 := cwField_of_masked 27 16 h rfl
  rw [decode, hop]
  exact if_pos hzero

theorem decode_of_encodeFrame_row {w : Word} (h : w &&& 0xFFFFFFF8 = 0x70000000) :
    decode w = .ok (.encodeFrame (w.getLsbD 2) (w.getLsbD 1) (w.getLsbD 0)) := by
  have hop : cwField w 31 28 = 7 := cwField_of_masked 31 28 h rfl
  have hzero : cwField w 27 3 = 0 := cwField_of_masked 27 3 h rfl
  rw [decode, hop]
  exact if_pos hzero

/-- Every row selects legal words only (rule R62). -/
theorem decode_of_selects {w : Word} {r : OpcodeRow} (hr : r ∈ opcodeRows) (h : r.selects w = true) :
    ∃ i, decode w = .ok i := by
  have hw : w &&& r.mask = r.pattern := beq_iff_eq.1 h
  have hexact : r.mask = BitVec.allOnes 32 → w = r.pattern := fun hm => by rw [← hw, hm, BitVec.and_allOnes]
  simp only [opcodeRows, List.mem_cons, List.not_mem_nil, or_false] at hr
  obtain rfl | rfl | rfl | rfl | rfl | rfl | rfl := hr
  · exact ⟨_, decode_of_openSession_row hw⟩
  · exact ⟨.closeSession, hexact rfl ▸ rfl⟩
  · exact ⟨.gammaSimple, hexact rfl ▸ rfl⟩
  · exact ⟨.gammaRange, hexact rfl ▸ rfl⟩
  · exact ⟨.gammaOff, hexact rfl ▸ rfl⟩
  · exact ⟨_, decode_of_setPin_row hw⟩
  · exact ⟨_, decode_of_encodeFrame_row hw⟩

/-- A row selects only words that carry its opcode (rule R61). -/
theorem op_of_selects {w : Word} {r : OpcodeRow} (hr : r ∈ opcodeRows) (h : r.selects w = true) :
    cwField w 31 28 = r.op := by
  have hrow : ∀ r ∈ opcodeRows, r.mask.extractLsb 31 28 = BitVec.allOnes 4 ∧ cwField r.pattern 31 28 = r.op := by decide
  rw [cwField_of_masked 31 28 (beq_iff_eq.1 h) (hrow r hr).1, (hrow r hr).2]

/-! ### Round trips -/

/-- Settles O1: the row of an instruction selects its encoding, whose number gives back each operand. -/
theorem decodeOfEncodeIsTheInstruction : Obligations.DecodeOfEncodeIsTheInstruction := by
  intro i wf
  cases i with
  | openSession hw n ppix =>
    obtain ⟨hn, hp⟩ : n < 2 ^ 8 ∧ ppix < 2 ^ 16 := by simpa [Instr.wellFormed] using wf
    have hnum := toNat_encode_openSession hw hn hp
    have hhw : (encode (.openSession hw n ppix)).getLsbD 24 = hw := by
      apply getLsbD_eq_of_toNat
      rw [hnum]
      have := hw.toNat_lt
      omega
    rw [decode_of_openSession_row (Laws.EncodedOpcode.openSession_row hw n ppix), hhw, cwField_eq, cwField_eq, hnum]
    congr 2 <;> omega
  | setPin idx mask =>
    have hidx : idx < 2 ^ 8 := by simpa [Instr.wellFormed] using wf
    have hnum := toNat_encode_setPin mask hidx
    have hmask : (encode (.setPin idx mask)).extractLsb 7 0 = mask := by
      apply BitVec.eq_of_toNat_eq
      change cwField _ 7 0 = _
      rw [cwField_eq, hnum]
      have := mask.isLt
      omega
    rw [decode_of_setPin_row (Laws.EncodedOpcode.setPin_row idx mask), hmask, cwField_eq, hnum]
    congr 2
    have := mask.isLt
    omega
  | encodeFrame st map pix =>
    clear wf
    revert st map pix
    decide
  | closeSession => rfl
  | gammaSimple => rfl
  | gammaRange => rfl
  | gammaOff => rfl

theorem whenZero_eq_ok {op mbz : Nat} {i j : Instr} : whenZero op mbz i = .ok j ↔ mbz = 0 ∧ i = j := by
  unfold whenZero
  split <;> simp [*]

/-- A word whose bits below the opcode are all 0 is the number of its opcode. -/
theorem eq_of_op_of_zero {w : Word} {op : Nat} (hop : cwField w 31 28 = op) (hz : cwField w 27 0 = 0) :
    w = BitVec.ofNat 32 (op * 2 ^ 28) := by
  rw [cwField_eq] at hop hz
  apply BitVec.eq_of_toNat_eq
  rw [BitVec.toNat_ofNat]
  have := w.isLt
  omega

theorem encode_openSession_fields {w : Word} (hop : cwField w 31 28 = 1) (hz : cwField w 27 25 = 0) :
    encode (.openSession (w.getLsbD 24) (cwField w 23 16) (cwField w 15 0)) = w := by
  apply BitVec.eq_of_toNat_eq
  rw [toNat_encode_openSession _ (cwField_lt w 23 16) (cwField_lt w 15 0), toNat_getLsbD_eq, cwField_eq, cwField_eq]
  rw [cwField_eq] at hop hz
  have := w.isLt
  omega

theorem encode_setPin_fields {w : Word} (hop : cwField w 31 28 = 6) (hz : cwField w 27 16 = 0) :
    encode (.setPin (cwField w 15 8) (w.extractLsb 7 0)) = w := by
  have hmask : (w.extractLsb 7 0).toNat = cwField w 7 0 := rfl
  apply BitVec.eq_of_toNat_eq
  rw [toNat_encode_setPin _ (cwField_lt w 15 8), hmask, cwField_eq, cwField_eq]
  rw [cwField_eq] at hop hz
  have := w.isLt
  omega

theorem encode_encodeFrame_fields {w : Word} (hop : cwField w 31 28 = 7) (hz : cwField w 27 3 = 0) :
    encode (.encodeFrame (w.getLsbD 2) (w.getLsbD 1) (w.getLsbD 0)) = w := by
  apply BitVec.eq_of_toNat_eq
  rw [toNat_encode_encodeFrame, toNat_getLsbD_eq, toNat_getLsbD_eq, toNat_getLsbD_eq]
  rw [cwField_eq] at hop hz
  have := w.isLt
  omega

/-- Settles O2: the decoder's cases, each of which keeps every bit of the word in an operand or has fixed it. -/
theorem encodeOfDecodeIsTheWord : Obligations.EncodeOfDecodeIsTheWord := by
  intro w i h
  unfold decode at h
  split at h
  case h_8 => cases h
  all_goals
    rename_i hop
    obtain ⟨hz, rfl⟩ := whenZero_eq_ok.1 h
  · have hn := cwField_lt w 23 16
    have hp := cwField_lt w 15 0
    exact ⟨by simpa [Instr.wellFormed] using ⟨hn, hp⟩, encode_openSession_fields hop hz⟩
  · exact ⟨rfl, (eq_of_op_of_zero hop hz).symm⟩
  · exact ⟨rfl, (eq_of_op_of_zero hop hz).symm⟩
  · exact ⟨rfl, (eq_of_op_of_zero hop hz).symm⟩
  · exact ⟨rfl, (eq_of_op_of_zero hop hz).symm⟩
  · have hidx := cwField_lt w 15 8
    exact ⟨by simpa [Instr.wellFormed] using hidx, encode_setPin_fields hop hz⟩
  · exact ⟨rfl, encode_encodeFrame_fields hop hz⟩

/-! ### The opcode table -/

/-- Every encoding carries its opcode, and the row with that opcode selects it. -/
theorem encodedOpcode : ∀ i : Instr, Laws.EncodedOpcode.Statement i
  | .openSession hw n ppix => Laws.EncodedOpcode.openSession hw n ppix
  | .closeSession => Laws.EncodedOpcode.closeSession
  | .gammaSimple => Laws.EncodedOpcode.gammaSimple
  | .gammaRange => Laws.EncodedOpcode.gammaRange
  | .gammaOff => Laws.EncodedOpcode.gammaOff
  | .setPin idx mask => Laws.EncodedOpcode.setPin idx mask
  | .encodeFrame st map pix => Laws.EncodedOpcode.encodeFrame st map pix

/-- No two rows select the same word. -/
theorem row_unique {w : Word} {r r' : OpcodeRow} (hr : r ∈ opcodeRows) (hr' : r' ∈ opcodeRows) (h : r.selects w = true)
    (h' : r'.selects w = true) : r' = r := by
  have hops : ∀ r ∈ opcodeRows, ∀ r' ∈ opcodeRows, r'.op = r.op → r' = r := by decide
  exact hops r hr r' hr' ((op_of_selects hr' h').symm.trans (op_of_selects hr h))

/-- Settles O3: a legal word is an encoding, which its row selects; a row selects legal words only. -/
theorem decoderIsTheOpcodeTable : Obligations.DecoderIsTheOpcodeTable := by
  intro w
  have hlegal : ∀ i, decode w = .ok i → ∃ r ∈ opcodeRows, r.op = i.op ∧ r.selects w = true := by
    intro i hi
    obtain ⟨wf, hw⟩ := encodeOfDecodeIsTheWord w i hi
    exact hw ▸ (encodedOpcode i wf).2
  refine ⟨fun i hi => ?_, fun ⟨e, he⟩ r hr => ?_, fun hnone => ?_⟩
  · obtain ⟨r, hr, hop, hsel⟩ := hlegal i hi
    exact ⟨r, hr, hop, hsel, fun r' hr' hsel' => row_unique hr hr' hsel hsel'⟩
  · rw [Bool.eq_false_iff]
    intro hsel
    obtain ⟨i, hi⟩ := decode_of_selects hr hsel
    cases hi.symm.trans he
  · cases hd : decode w with
    | error e => exact ⟨e, rfl⟩
    | ok i =>
      obtain ⟨r, hr, -, hsel⟩ := hlegal i hd
      cases hsel.symm.trans (hnone r hr)

/-! ### Single words -/

/-- Settles O4: fourteen closed evaluations of the decoder. -/
theorem listedWordsDecode : Obligations.ListedWordsDecode := by
  unfold Obligations.ListedWordsDecode
  decide

namespace Machine

/-- An illegal command word fails on the state that has accepted the word (rules R16, R62). -/
theorem issueCommand_of_decode_error {w : Word} {e : Illegal} (hw : decode w = .error e) (env : Env) (s : State) :
    issueCommand w env s = .next ((s.accept w env).raise .invalidParameter) := by
  unfold issueCommand
  rw [hw]

/-- Settles O5: the step of an illegal word, which only fails on the state that has accepted it. -/
theorem illegalWordOnlySetsStatus : Obligations.IllegalWordOnlySetsStatus := by
  intro s w env rest hs ⟨e, he⟩
  rw [step_of_pending_cons s _ rest hs]
  exact issueCommand_of_decode_error he env _

end Machine
end Sys2Proof
end

section
/-! The exponents of `FARG`, and the ends and the direction of a GAMMA_RANGE curve. -/

namespace Sys2Proof.Machine

/-! ### Exponents (rule R58) -/

/-- The legality check, field by field. -/
theorem fargLegal_iff (v : BitVec 64) : fargLegal v = true ↔
    fargSign v = false ∧ fargBiased v ≠ 2047 ∧ ¬ (fargBiased v = 0 ∧ fargFraction v = 0) := by
  simp only [fargLegal, Bool.and_eq_true, Bool.not_eq_true', beq_eq_false_iff_ne, Bool.and_eq_false_imp, beq_iff_eq,
    not_and, and_assoc, ne_eq]

/-- The value of a pattern whose sign is 1 is not positive. -/
theorem binary64Value_nonpos {v : BitVec 64} (h : fargSign v = true) : binary64Value v ≤ 0 := by
  rw [binary64Value, if_pos h, neg_one_mul, neg_nonpos]
  split <;> positivity

/-- The value of a zero is 0. -/
theorem binary64Value_zero {v : BitVec 64} (hE : fargBiased v = 0) (hf : fargFraction v = 0) : binary64Value v = 0 := by
  rw [binary64Value, if_pos hE, hf, Nat.cast_zero, zero_div, zero_mul, mul_zero]

/-- A pattern is legal exactly when it is finite and its value is positive (rules R58, R76). -/
theorem fargLegal_iff_value_pos (v : BitVec 64) : fargLegal v = true ↔ fargBiased v < 2047 ∧ 0 < binary64Value v := by
  have hE : fargBiased v < 2 ^ 11 := (v.extractLsb' 52 11).isLt
  constructor
  · intro h
    obtain ⟨hsign, hfinite, -⟩ := (fargLegal_iff v).1 h
    exact ⟨by omega, fargValue_eq_binary64 v hsign ▸ fargValue_pos v h⟩
  · intro ⟨hfinite, hpos⟩
    refine (fargLegal_iff v).2 ⟨?_, hfinite.ne, fun ⟨hE0, hf0⟩ => hpos.ne' (binary64Value_zero hE0 hf0)⟩
    exact Bool.eq_false_iff.2 fun hsign => (binary64Value_nonpos hsign).not_gt hpos

/-- Settles O23: the fields named in the statement are the model's own. -/
theorem legalExponentsAreFiniteAndPositive : Obligations.LegalExponentsAreFiniteAndPositive := by
  rintro v sign E f x rfl rfl rfl rfl
  exact ⟨fargLegal_iff v, fargLegal_iff_value_pos v, rfl,
    fun h => fargValue_eq_binary64 v ((fargLegal_iff v).1 h).1⟩

/-! ### GAMMA_RANGE (rule R72) -/

/-- The rounded power vanishes at 0. -/
theorem scaledPow_zero (strict : Bool) {d : Nat} {g : ℚ} (hd : d ≤ 255) (hg : 0 < g) : scaledPow strict d 0 g = 0 := by
  by_contra h
  have hspec := (scaledPow_spec strict d 0 g hd (by omega) hg 1 one_pos
    ((Nat.one_le_iff_ne_zero.2 h).trans (scaledPow_le strict d 0 g))).1 (Nat.one_le_iff_ne_zero.2 h)
  rw [Nat.cast_zero, zero_div, Real.zero_rpow (by exact_mod_cast hg.ne')] at hspec
  cases strict <;> norm_num at hspec

/-- The rounded power is the whole span at 255. -/
theorem scaledPow_255 (strict : Bool) {d : Nat} {g : ℚ} (hd : d ≤ 255) (hg : 0 < g) : scaledPow strict d 255 g = d := by
  apply le_antisymm (scaledPow_le strict d 255 g)
  rcases Nat.eq_zero_or_pos d with rfl | hpos
  · exact Nat.zero_le _
  · rw [scaledPow_spec strict d 255 g hd le_rfl hg d hpos le_rfl]
    cases strict <;> norm_num

/-- The rounded power rises with its argument. -/
theorem scaledPow_mono (strict : Bool) {d i j : Nat} {g : ℚ} (hd : d ≤ 255) (hg : 0 < g) (hij : i ≤ j) (hj : j ≤ 255) :
    scaledPow strict d i g ≤ scaledPow strict d j g := by
  rcases Nat.eq_zero_or_pos (scaledPow strict d i g) with hz | hpos
  · exact hz ▸ Nat.zero_le _
  · have hle := scaledPow_le strict d i g
    have hi := (scaledPow_spec strict d i g hd (hij.trans hj) hg _ hpos hle).1 le_rfl
    rw [scaledPow_spec strict d j g hd hj hg _ hpos hle]
    have hg' : (0 : ℝ) ≤ g := by exact_mod_cast hg.le
    have hpow : (d : ℝ) * ((i : ℝ) / 255) ^ (g : ℝ) ≤ d * ((j : ℝ) / 255) ^ (g : ℝ) := by gcongr
    cases strict
    · exact hi.trans hpow
    · exact hi.trans_le hpow

/-- An entry of a rising or constant channel, as a number. -/
theorem toNat_rangeEntry_of_le {mn mx : Byte} (h : mn ≤ mx) (g : ℚ) (i : Fin 256) :
    (rangeEntry mn mx g i).toNat = mn.toNat + scaledPow false (mx.toNat - mn.toNat) i.val g := by
  have hle := scaledPow_le false (mx.toNat - mn.toNat) i.val g
  have hmx := mx.isLt
  have hle' := BitVec.le_def.1 h
  rw [rangeEntry, if_pos h, BitVec.toNat_ofNat, Nat.mod_eq_of_lt (by omega)]

/-- An entry of a falling channel, as a number. -/
theorem toNat_rangeEntry_of_not_le {mn mx : Byte} (h : ¬ mn ≤ mx) (g : ℚ) (i : Fin 256) :
    (rangeEntry mn mx g i).toNat = mn.toNat - scaledPow true (mn.toNat - mx.toNat) i.val g := by
  have hmn := mn.isLt
  rw [rangeEntry, if_neg h, BitVec.toNat_ofNat, Nat.mod_eq_of_lt (by omega)]

theorem rangeEntry_zero (mn mx : Byte) {g : ℚ} (hg : 0 < g) : rangeEntry mn mx g 0 = mn := by
  apply BitVec.eq_of_toNat_eq
  have hmn := mn.isLt
  have hmx := mx.isLt
  by_cases h : mn ≤ mx
  · rw [toNat_rangeEntry_of_le h, Fin.val_zero, scaledPow_zero false (by omega) hg, Nat.add_zero]
  · rw [toNat_rangeEntry_of_not_le h, Fin.val_zero, scaledPow_zero true (by omega) hg, Nat.sub_zero]

theorem rangeEntry_255 (mn mx : Byte) {g : ℚ} (hg : 0 < g) : rangeEntry mn mx g 255 = mx := by
  apply BitVec.eq_of_toNat_eq
  have hmn := mn.isLt
  have hmx := mx.isLt
  have h255 : (255 : Fin 256).val = 255 := rfl
  by_cases h : mn ≤ mx
  · rw [toNat_rangeEntry_of_le h, h255, scaledPow_255 false (by omega) hg, Nat.add_sub_cancel' h]
  · rw [toNat_rangeEntry_of_not_le h, h255, scaledPow_255 true (by omega) hg]
    rw [BitVec.le_def] at h
    omega

/-- A channel with `min ≤ max` never falls. -/
theorem rangeEntry_mono {mn mx : Byte} (h : mn ≤ mx) {g : ℚ} (hg : 0 < g) {i j : Fin 256} (hij : i ≤ j) :
    rangeEntry mn mx g i ≤ rangeEntry mn mx g j := by
  have hmx := mx.isLt
  rw [BitVec.le_def, toNat_rangeEntry_of_le h, toNat_rangeEntry_of_le h]
  exact Nat.add_le_add_left (scaledPow_mono false (by omega) hg hij (by omega)) _

/-- A channel with `max < min` never rises. -/
theorem rangeEntry_antitone {mn mx : Byte} (h : ¬ mn ≤ mx) {g : ℚ} (hg : 0 < g) {i j : Fin 256} (hij : i ≤ j) :
    rangeEntry mn mx g j ≤ rangeEntry mn mx g i := by
  have hmn := mn.isLt
  rw [BitVec.le_def, toNat_rangeEntry_of_not_le h, toNat_rangeEntry_of_not_le h]
  exact Nat.sub_le_sub_left (scaledPow_mono true (by omega) hg hij (by omega)) _

/-- GAMMA_RANGE installs its curves when all three exponents are legal (rule R72). -/
theorem execGammaRange_of_legal {s : State} (h : ∀ c, fargLegal (s.farg.get c) = true) :
    execGammaRange s = .next ((s.setGamma (rangeTable s.range s.farg)).done .ok) := by
  rw [execGammaRange, rangeExponentsLegal, h, h, h]
  rfl

/-- The table GAMMA_RANGE installs, entry by entry. -/
theorem rangeTable_entry (r : BitVec 48) (farg : Vector (BitVec 64) 3) (c : Channel) (i : Byte) :
    (rangeTable r farg).entry c i = rangeEntry (rangeMin r c) (rangeMax r c) (fargValue (farg.get c)) i.toFin :=
  GammaTable.tabulate_entry _ c i

/-- Settles O22: the ends and the direction of `rangeEntry`. -/
theorem gammaRangeStaysBetweenItsEnds : Obligations.GammaRangeStaysBetweenItsEnds := by
  rintro s t legal ht c mn mx rfl rfl
  cases (execGammaRange_of_legal legal).symm.trans ht
  have hg := fargValue_pos _ (legal c)
  simp only [State.done_gamma, State.setGamma_gamma, rangeTable_entry]
  refine ⟨rangeEntry_zero _ _ hg, rangeEntry_255 _ _ hg, fun i j hij => ?_⟩
  split
  · next h => exact rangeEntry_mono h hg hij
  · next h => exact rangeEntry_antitone h hg hij

end Sys2Proof.Machine
end

section
/-! The chip word and its control byte (rules R52, R53). -/

namespace Sys2Proof.Machine

theorem pack_red (v : Rgb) : (pack v).extractLsb' 0 8 = v.r := BitVec.extractLsb'_append_eq_right

theorem pack_green (v : Rgb) : (pack v).extractLsb' 8 8 = v.g := by
  rw [pack, BitVec.extractLsb'_append_eq_of_le (by decide)]
  exact BitVec.extractLsb'_append_eq_right

theorem pack_blue (v : Rgb) : (pack v).extractLsb' 16 8 = v.b := by
  rw [pack, BitVec.extractLsb'_append_eq_of_le (by decide), BitVec.extractLsb'_append_eq_of_le (by decide)]
  exact BitVec.extractLsb'_append_eq_right

/-- A part of the top byte of the chip word is that part of the control byte. -/
theorem pack_control (v : Rgb) (k len : Nat) :
    (pack v).extractLsb' (24 + k) len = (controlByte v).extractLsb' k len := by
  have hk : 24 + k - 8 - 8 - 8 = k := by omega
  rw [pack, BitVec.extractLsb'_append_eq_of_le (by omega), BitVec.extractLsb'_append_eq_of_le (by omega),
    BitVec.extractLsb'_append_eq_of_le (by omega), hk]

/-- The four two-bit parts of a byte. -/
theorem extractLsb'_pairs (a b c d : BitVec 2) :
    (a ++ b ++ c ++ d).extractLsb' 6 2 = a ∧ (a ++ b ++ c ++ d).extractLsb' 4 2 = b ∧
    (a ++ b ++ c ++ d).extractLsb' 2 2 = c ∧ (a ++ b ++ c ++ d).extractLsb' 0 2 = d := by
  refine ⟨?_, ?_, ?_, BitVec.extractLsb'_append_eq_right⟩
  · rw [BitVec.extractLsb'_append_eq_of_le (by decide), BitVec.extractLsb'_append_eq_of_le (by decide)]
    exact BitVec.extractLsb'_append_eq_left
  · rw [BitVec.extractLsb'_append_eq_of_le (by decide), BitVec.extractLsb'_append_eq_of_le (by decide)]
    exact BitVec.extractLsb'_append_eq_right
  · rw [BitVec.extractLsb'_append_eq_of_le (by decide)]
    exact BitVec.extractLsb'_append_eq_right

/-- The two forms of the control byte, for any two-bit tops. -/
theorem control_forms (b g r : BitVec 2) : (0b11#2 : BitVec 2) ++ ~~~ b ++ ~~~ g ++ ~~~ r =
    ~~~ (b.setWidth 8 <<< 4 ||| g.setWidth 8 <<< 2 ||| r.setWidth 8) := by
  revert b g r
  decide

/-- Settles O25: the three channel bytes, then the control byte as a whole and by pairs of bits. -/
theorem packedWordLayout : Obligations.PackedWordLayout := by
  intro v
  obtain ⟨hones, hblue, hgreen, hred⟩ := extractLsb'_pairs 0b11#2 (~~~ top2 v.b) (~~~ top2 v.g) (~~~ top2 v.r)
  have hwhole : (pack v).extractLsb' 24 8 = controlByte v := (pack_control v 0 8).trans BitVec.extractLsb'_eq_self
  exact ⟨pack_red v, pack_green v, pack_blue v, hwhole.trans (control_forms _ _ _),
    (pack_control v 6 2).trans hones, (pack_control v 4 2).trans hblue, (pack_control v 2 2).trans hgreen,
    (pack_control v 0 2).trans hred⟩

end Sys2Proof.Machine
end

section
/-! Result codes, and OPEN by the legacy strand count. -/

namespace Sys2Proof.Machine

/-- Settles O17: the numbers by definition, the classes as comparisons of them. -/
theorem resultCodes : Obligations.ResultCodes := by
  refine ⟨rfl, rfl, rfl, rfl, rfl, rfl, rfl, rfl, fun k => ⟨?_, ?_⟩⟩
  · rw [Status.isFailure, Bool.and_eq_true, decide_eq_true_eq, decide_eq_true_eq]
  · rw [Status.isWarning, decide_eq_true_eq]

/-! ### The legacy strand count (rule R57) -/

/-- OPEN refuses a strand count of 0 or above 8 (rule R140). -/
theorem execOpen_of_strands_out_of_range {s : State} (hw : Bool) {n : Nat} (ppix : Nat) (h : n = 0 ∨ 8 < n) :
    execOpen hw n ppix s = .next (s.raise .invalidParameter) := by
  rw [execOpen, openCheck, if_pos h, ite_self]

/-- A successful OPEN reports the transport's warning, or OK without one (rule R147). -/
theorem State.opensTo_status (s : State) (hw : Bool) (n ppix : Nat) :
    (s.opensTo hw n ppix).status = s.env.warn.status := rfl

/-- What the host sees of a session just opened. -/
theorem exec_openSession_good {s : State} {hw : Bool} {n ppix : Nat} (closed : s.opened = false)
    (ok : s.OpenOk hw n ppix) (good : s.env.openOutcome = .good) :
    ∃ t, exec (.openSession hw n ppix) s = .next t ∧
      (s.env.warn = .none → t.status = .ok) ∧ (s.env.warn = .divisorWarning → t.status = .divisorWarning) ∧
      (s.env.warn = .baudRateWarning → t.status = .baudRateWarning) ∧ t.opened = true ∧ t.HW = hw ∧ t.S.val = n := by
  have ⟨_, hn8, _⟩ := ok
  have hstatus := s.opensTo_status hw n ppix
  exact ⟨s.opensTo hw n ppix, execOpen_good closed ok good, fun h => hstatus.trans (congrArg OpenWarning.status h),
    fun h => hstatus.trans (congrArg OpenWarning.status h), fun h => hstatus.trans (congrArg OpenWarning.status h),
    rfl, rfl, ofNat_strands_val hn8⟩

theorem openRaw_of_lt_eight {nRaw : Nat} (h : nRaw < 8) (ppix : Nat) : openRaw nRaw ppix = .openSession false nRaw ppix := by
  rw [openRaw, decide_eq_false (by omega), if_neg (by omega)]

theorem openRaw_of_eight_le {nRaw : Nat} (h : 8 ≤ nRaw) (ppix : Nat) :
    openRaw nRaw ppix = .openSession true (nRaw - 8) ppix := by
  rw [openRaw, decide_eq_true h, if_pos h]

/-- Settles O34: the count and the clock mode a raw count stands for, then OPEN. -/
theorem rawStrandCount : Obligations.RawStrandCount := by
  intro s nRaw ppix closed hp1 hp2 good
  refine ⟨fun h1 h7 => ?_, fun h9 h16 => ?_, fun h => ?_⟩
  · rw [openRaw_of_lt_eight (by omega)]
    exact exec_openSession_good closed ⟨h1, by omega, fun _ => h7, hp1, hp2⟩ good
  · rw [openRaw_of_eight_le (by omega)]
    exact exec_openSession_good closed ⟨by omega, by omega, nofun, hp1, hp2⟩ good
  · obtain hlt | hge := Nat.lt_or_ge nRaw 8
    · rw [openRaw_of_lt_eight hlt]
      exact execOpen_of_strands_out_of_range false ppix (by omega)
    · rw [openRaw_of_eight_le hge]
      exact execOpen_of_strands_out_of_range true ppix (by omega)

end Sys2Proof.Machine
end

section
/-! The gamma tables as the real curves of rules R71 to R73, and their exact forms (rule R75). -/

namespace Sys2Proof.Machine

/-- The number the gamma operations use is the binary64 value of a legal exponent (rule R58). -/
theorem fargValue_of_legal {v : BitVec 64} (h : fargLegal v = true) : fargValue v = binary64Value v :=
  fargValue_eq_binary64 v ((fargLegal_iff v).1 h).1

/-! ### GAMMA_OFF (rule R73) -/

theorem identityTable_entry (c : Channel) (i : Byte) : identityTable.entry c i = i :=
  GammaTable.tabulate_entry _ c i

/-- Settles O20: the identity table, entry by entry. -/
theorem gammaOffInstallsTheIdentity : Obligations.GammaOffInstallsTheIdentity :=
  ⟨by decide, fun _ => ⟨_, rfl, rfl, identityTable_entry⟩⟩

/-! ### The curve of GAMMA_RANGE (rule R72) -/

/-- An entry of a GAMMA_RANGE channel is the formula of rule R72 over the reals, in either direction. -/
theorem rangeEntry_floor (mn mx : Byte) {g : ℚ} (hg : 0 < g) (i : Fin 256) :
    ((rangeEntry mn mx g i).toNat : ℤ) =
      mn.toNat + ⌊1 / 2 + ((mx.toNat : ℝ) - mn.toNat) * ((i.val : ℝ) / 255) ^ (g : ℝ)⌋ := by
  have hmn := mn.isLt
  have hmx := mx.isLt
  by_cases h : mn ≤ mx
  · rw [toNat_rangeEntry_of_le h, Nat.cast_add, scaledPow_floor _ _ g (by omega) (by omega) hg, Nat.cast_sub h]
  · have hlt : mx.toNat ≤ mn.toNat := (BitVec.not_le.1 h).le
    have hle := scaledPow_le true (mn.toNat - mx.toNat) i.val g
    rw [toNat_rangeEntry_of_not_le h, Nat.cast_sub (by omega), sub_eq_add_neg,
      scaledPow_ceil _ _ g (by omega) (by omega) hg, Nat.cast_sub hlt, sub_eq_add_neg, ← neg_mul, neg_sub]

theorem rangeExponentsLegal_iff (farg : Vector (BitVec 64) 3) :
    rangeExponentsLegal farg = true ↔ ∀ c, fargLegal (farg.get c) = true := by
  simp only [rangeExponentsLegal, Bool.and_eq_true, Fin.forall_fin_succ, Fin.succ_zero_eq_one, Fin.succ_one_eq_two,
    and_assoc, IsEmpty.forall_iff, and_true]

/-- GAMMA_RANGE fails on any illegal exponent (rules R72, R76). -/
theorem execGammaRange_of_illegal {s : State} (h : ∃ c, fargLegal (s.farg.get c) = false) :
    execGammaRange s = .next (s.raise .invalidParameter) := by
  obtain ⟨c, hc⟩ := h
  have hnot : ¬ rangeExponentsLegal s.farg = true := fun hlegal =>
    Bool.false_ne_true (hc.symm.trans ((rangeExponentsLegal_iff s.farg).1 hlegal c))
  rw [execGammaRange, if_neg hnot]

/-- Settles O19: each entry of the table is the real formula. -/
theorem gammaRangeInstallsTheRealCurves : Obligations.GammaRangeInstallsTheRealCurves := by
  refine ⟨by decide, fun s => ⟨fun legal => ⟨_, execGammaRange_of_legal legal, rfl, ?_⟩, execGammaRange_of_illegal⟩⟩
  rintro c i mn mx rfl rfl
  rw [State.done_gamma, State.setGamma_gamma, rangeTable_entry, rangeEntry_floor _ _ (fargValue_pos _ (legal c)),
    fargValue_of_legal (legal c)]
  rfl

/-! ### The curve of GAMMA_SIMPLE (rule R71) -/

/-- GAMMA_SIMPLE is the curve of GAMMA_RANGE from 0 to 255. -/
theorem simpleEntry_eq_rangeEntry (g : ℚ) (i : Fin 256) : simpleEntry g i = rangeEntry 0 255 g i := by
  rw [rangeEntry, if_pos (by decide)]
  exact congrArg (BitVec.ofNat 8) (Nat.zero_add _).symm

/-- An entry of GAMMA_SIMPLE is the formula of rule R71 over the reals. -/
theorem simpleEntry_floor {g : ℚ} (hg : 0 < g) (i : Fin 256) :
    ((simpleEntry g i).toNat : ℤ) = ⌊1 / 2 + (255 : ℝ) * ((i.val : ℝ) / 255) ^ (g : ℝ)⌋ := by
  have h0 : (0 : Byte).toNat = 0 := rfl
  have h255 : (255 : Byte).toNat = 255 := rfl
  rw [simpleEntry_eq_rangeEntry, rangeEntry_floor 0 255 hg, h0, h255]
  norm_num

/-- The table GAMMA_SIMPLE installs, entry by entry. -/
theorem simpleTable_entry (g : ℚ) (c : Channel) (i : Byte) : (simpleTable g).entry c i = simpleEntry g i.toFin :=
  GammaTable.tabulate_entry _ c i

theorem execGammaSimple_of_legal {s : State} (h : fargLegal (s.farg.get 0) = true) :
    execGammaSimple s = .next ((s.setGamma (simpleTable (fargValue (s.farg.get 0)))).done .ok) := by
  rw [execGammaSimple, if_pos h]

/-- GAMMA_SIMPLE fails on an illegal exponent (rules R71, R76). -/
theorem execGammaSimple_of_illegal {s : State} (h : fargLegal (s.farg.get 0) = false) :
    execGammaSimple s = .next (s.raise .invalidParameter) := by
  rw [execGammaSimple, if_neg (Bool.eq_false_iff.1 h)]

/-- Settles O18: each entry of the table is the real formula. -/
theorem gammaSimpleInstallsTheRealCurve : Obligations.GammaSimpleInstallsTheRealCurve := by
  refine ⟨by decide, fun s => ⟨fun legal => ⟨_, execGammaSimple_of_legal legal, rfl, fun c i => ?_⟩,
    execGammaSimple_of_illegal⟩⟩
  rw [State.done_gamma, State.setGamma_gamma, simpleTable_entry, simpleEntry_floor (fargValue_pos _ legal),
    fargValue_of_legal legal]
  rfl

/-! ### The exact forms (rule R75) -/

/-- GAMMA_SIMPLE at the exponent `v`, a given legal pattern of value `g`. -/
theorem execGammaSimple_at {s : State} {v : BitVec 64} {g : ℚ} (hs : s.farg.get 0 = v) (legal : fargLegal v = true)
    (hg : fargValue v = g) : execGammaSimple s = .next ((s.setGamma (simpleTable g)).done .ok) := by
  subst hs hg
  exact execGammaSimple_of_legal legal

theorem fargValue_one : fargValue 0x3FF0000000000000 = 1 := rfl

theorem fargValue_two : fargValue 0x4000000000000000 = 2 := rfl

theorem fargValue_half : fargValue 0x3FE0000000000000 = 1 / 2 := by
  change mkRat (2 ^ 52) (2 ^ 53) = 1 / 2
  norm_num [Rat.mkRat_eq_div]

/-- The exponent 1 gives the identity. -/
theorem simpleEntry_one (i : Fin 256) : simpleEntry 1 i = BitVec.ofFin i := by
  have hreal : 1 / 2 + (255 : ℝ) * ((i.val : ℝ) / 255) ^ ((1 : ℚ) : ℝ) = 1 / 2 + (i.val : ℕ) := by
    rw [Rat.cast_one, Real.rpow_one, mul_div_cancel₀ _ (by norm_num)]
  have hhalf : ⌊(1 / 2 : ℝ)⌋ = 0 := by norm_num
  have h := simpleEntry_floor one_pos i
  rw [hreal, Int.floor_add_natCast, hhalf, zero_add] at h
  exact BitVec.eq_of_toNat_eq (by exact_mod_cast h)

theorem simpleTable_one : simpleTable 1 = identityTable :=
  congrArg GammaTable.tabulate (funext fun _ => funext simpleEntry_one)

/-- The exponent 2 in integers: `floor(1/2 + i²/255)`. -/
theorem toNat_simpleEntry_two (i : Fin 256) : (simpleEntry 2 i).toNat = (2 * i.val ^ 2 + 255) / 510 := by
  have hreal : 1 / 2 + (255 : ℝ) * ((i.val : ℝ) / 255) ^ ((2 : ℚ) : ℝ) =
      ((2 * i.val ^ 2 + 255 : ℕ) : ℝ) / (510 : ℕ) := by
    rw [Rat.cast_ofNat, Real.rpow_ofNat]
    push_cast
    ring
  have h := simpleEntry_floor two_pos i
  rw [hreal, Int.floor_div_natCast, Int.floor_natCast] at h
  exact_mod_cast h

/-- The exponent 1/2 rounds the square root of `255·i`. -/
theorem simpleEntry_half_floor (i : Fin 256) :
    ((simpleEntry (1 / 2) i).toNat : ℤ) = ⌊1 / 2 + √((255 * i.val : ℕ) : ℝ)⌋ := by
  have hreal : (255 : ℝ) * ((i.val : ℝ) / 255) ^ ((1 / 2 : ℚ) : ℝ) = √((255 * i.val : ℕ) : ℝ) := by
    have hsplit : ((255 * i.val : ℕ) : ℝ) = 255 ^ 2 * (i.val / 255) := by push_cast; ring
    rw [hsplit, Real.sqrt_mul (by positivity), Real.sqrt_sq (by norm_num), Real.sqrt_eq_rpow]
    norm_num
  rw [simpleEntry_floor one_half_pos, hreal]

/-- Rounding a square root of at least 1 to the nearest, in integers. -/
theorem round_sqrt_bounds {m n : ℕ} (hm : 1 ≤ m) (h : (n : ℤ) = ⌊1 / 2 + √(m : ℝ)⌋) :
    1 ≤ n ∧ (2 * n - 1) ^ 2 ≤ 4 * m ∧ 4 * m < (2 * n + 1) ^ 2 := by
  rw [eq_comm, Int.floor_eq_iff, Int.cast_natCast] at h
  obtain ⟨hlo, hhi⟩ := h
  have hsq : (2 * √(m : ℝ)) ^ 2 = 4 * m := by
    rw [mul_pow, Real.sq_sqrt m.cast_nonneg]
    norm_num
  have hroot : 1 ≤ √(m : ℝ) := Real.one_le_sqrt.2 (by exact_mod_cast hm)
  have hn : 1 ≤ n := Nat.one_le_iff_ne_zero.2 fun h0 => by
    rw [h0, Nat.cast_zero] at hhi
    linarith
  refine ⟨hn, ?_, ?_⟩
  · have hn1 : (1 : ℝ) ≤ n := by exact_mod_cast hn
    have hle : (2 * (n : ℝ) - 1) ^ 2 ≤ 4 * m := hsq ▸ pow_le_pow_left₀ (by linarith) (by linarith) 2
    have hcast : ((2 * n - 1 : ℕ) : ℝ) = 2 * n - 1 := by
      rw [Nat.cast_sub (by omega)]
      norm_num
    rw [← hcast] at hle
    exact_mod_cast hle
  · have hlt : 4 * (m : ℝ) < (2 * n + 1) ^ 2 := hsq ▸ pow_lt_pow_left₀ (by linarith) (by positivity) two_ne_zero
    exact_mod_cast hlt

/-- Settles O21: the properties of the curves, at the table each exponent installs. -/
theorem gammaTableProperties : Obligations.GammaTableProperties := by
  refine ⟨fun s t legal ht c => ?_, fun s t ht => ?_, fun s hs => ?_, fun s t hs ht => ?_, fun s t hs ht c => ?_⟩
  · cases (execGammaSimple_of_legal legal).symm.trans ht
    have hg := fargValue_pos _ legal
    simp only [State.done_gamma, State.setGamma_gamma, simpleTable_entry, simpleEntry_eq_rangeEntry]
    exact ⟨fun i j hij => rangeEntry_mono (by decide) hg hij, rangeEntry_zero 0 255 hg, rangeEntry_255 0 255 hg⟩
  · cases ht
    exact identityTable_entry
  · rw [exec, execGammaSimple_at hs (by decide) fargValue_one, simpleTable_one]
    rfl
  · cases (execGammaSimple_at hs (by decide) fargValue_two).symm.trans ht
    exact fun c i => (congrArg BitVec.toNat (simpleTable_entry 2 c i)).trans (toNat_simpleEntry_two i.toFin)
  · cases (execGammaSimple_at hs (by decide) fargValue_half).symm.trans ht
    simp only [State.done_gamma, State.setGamma_gamma, simpleTable_entry, mul_assoc]
    exact ⟨(simpleEntry_eq_rangeEntry _ 0).trans (rangeEntry_zero 0 255 one_half_pos),
      fun i hi => round_sqrt_bounds (by omega) (simpleEntry_half_floor i.toFin)⟩

end Sys2Proof.Machine
end

section
/-! The current model: its two parts, their bounds, and the currents of the remap sentinels (rules R81 to R84). -/

namespace Sys2Proof.Machine

/-! ### The combinational factor -/

/-- The share `x·y/255²` that weighs a pair of channels lies between 0 and 1 (rule R81). -/
theorem channelShare_mem_Icc (x y : Byte) : (x.toNat : ℚ) * y.toNat / 65025 ∈ Set.Icc 0 1 := by
  have hxy : x.toNat * y.toNat ≤ 255 * 255 := Nat.mul_le_mul (Nat.le_of_lt_succ x.isLt) (Nat.le_of_lt_succ y.isLt)
  have hcast : (x.toNat : ℚ) * y.toNat ≤ 65025 := by exact_mod_cast hxy
  exact ⟨by positivity, (div_le_one (by norm_num)).2 hcast⟩

/-- For a ratio of at most 1 the factor lies between the ratio and 1 (rule R81). -/
theorem comboFactor_mem_Icc {k : ℚ} (hk : k ≤ 1) (x y : Byte) : comboFactor x y k ∈ Set.Icc k 1 := by
  obtain ⟨hlo, hhi⟩ := channelShare_mem_Icc x y
  have hk' : 0 ≤ 1 - k := sub_nonneg.2 hk
  constructor
  · have hloss := mul_le_of_le_one_left hk' hhi
    unfold comboFactor
    linarith
  · exact sub_le_self _ (mul_nonneg hlo hk')

@[simp] theorem comboFactor_zero_left (y : Byte) (k : ℚ) : comboFactor 0#8 y k = 1 := by
  simp [comboFactor]

@[simp] theorem comboFactor_zero_right (x : Byte) (k : ℚ) : comboFactor x 0#8 k = 1 := by
  simp [comboFactor]

@[simp] theorem comboFactor_full (k : ℚ) : comboFactor 255#8 255#8 k = k := by
  norm_num [comboFactor]

/-- Settles O27: `65025` is `255²`, and the formula is the definition. -/
theorem currentFormula : Obligations.CurrentFormula := by
  refine fun c v => ⟨fun x y k => ?_, rfl⟩
  have hsq : (65025 : ℚ) = 255 ^ 2 := by norm_num
  rw [comboFactor, hsq]

/-! ### The naive sum and its attenuation -/

/-- The draw of the three channels without the combinational factors: the linear term of rule R82. -/
def naiveDraw (c : Cal) (v : Rgb) : ℚ :=
  (v.r.toNat * c.cr + v.g.toNat * c.cg + v.b.toNat * c.cb) / 255

/-- The product of the three combinational factors of rule R82. -/
def attenuation (c : Cal) (v : Rgb) : ℚ :=
  comboFactor v.r v.g c.kRG * comboFactor v.g v.b c.kGB * comboFactor v.r v.b c.kRB

theorem current_eq_base_add (c : Cal) (v : Rgb) : current c v = c.base + naiveDraw c v * attenuation c v := by
  simp only [current, naiveDraw, attenuation, mul_assoc]

theorem naiveDraw_nonneg {c : Cal} (hc : c.Legal) (v : Rgb) : 0 ≤ naiveDraw c v := by
  obtain ⟨-, hr, hg, hb, -⟩ := hc
  unfold naiveDraw
  positivity

/-- With legal constants each factor lies between 0 and 1, and so does their product. -/
theorem attenuation_mem_Icc {c : Cal} (hc : c.Legal) (v : Rgb) : attenuation c v ∈ Set.Icc 0 1 := by
  obtain ⟨-, -, -, -, ⟨hRG, hRG1⟩, ⟨hGB, hGB1⟩, hRB, hRB1⟩ := hc
  have factor {k : ℚ} (hk : 0 ≤ k) (hk1 : k ≤ 1) (x y : Byte) : comboFactor x y k ∈ Set.Icc 0 1 :=
    Set.Icc_subset_Icc_left hk (comboFactor_mem_Icc hk1 x y)
  exact (⟨_, factor hRG hRG1 v.r v.g⟩ * ⟨_, factor hGB hGB1 v.g v.b⟩ * ⟨_, factor hRB hRB1 v.r v.b⟩ :
    Set.Icc (0 : ℚ) 1).2

/-- With legal constants a lit slot draws at least the baseline (rule R84 (e)). -/
theorem base_le_current {c : Cal} (hc : c.Legal) (v : Rgb) : c.base ≤ current c v := by
  rw [current_eq_base_add]
  exact le_add_of_nonneg_right (mul_nonneg (naiveDraw_nonneg hc v) (attenuation_mem_Icc hc v).1)

/-- With legal constants the factors never raise the draw above the naive sum (rule R84 (c), (e)). -/
theorem current_le_base_add_naiveDraw {c : Cal} (hc : c.Legal) (v : Rgb) : current c v ≤ c.base + naiveDraw c v := by
  rw [current_eq_base_add]
  gcongr
  exact mul_le_of_le_one_right (naiveDraw_nonneg hc v) (attenuation_mem_Icc hc v).2

/-! ### Channels that are off or full on (rule R84 (a) to (d)) -/

/-- A channel that is full on, or off. -/
def fullIf (on : Bool) : Byte := if on then 255 else 0

/-- A full channel adds its own constant to the naive sum, an off channel nothing. -/
theorem naiveDraw_fullIf (c : Cal) (r g b : Bool) :
    naiveDraw c { r := fullIf r, g := fullIf g, b := fullIf b } =
      (if r then c.cr else 0) + (if g then c.cg else 0) + (if b then c.cb else 0) := by
  have hterm (on : Bool) (q : ℚ) : ((fullIf on).toNat : ℚ) * q = 255 * if on then q else 0 := by
    cases on <;> simp [fullIf]
  simp only [naiveDraw, hterm]
  ring

/-- The factor of two such channels is the ratio when both are full and 1 otherwise. -/
theorem comboFactor_fullIf (x y : Bool) (k : ℚ) : comboFactor (fullIf x) (fullIf y) k = if x && y then k else 1 := by
  cases x <;> cases y <;> simp [fullIf]

/-- The current of any choice of full channels in closed form (rule R84 (a) to (d)). -/
theorem current_fullIf (c : Cal) (r g b : Bool) :
    current c { r := fullIf r, g := fullIf g, b := fullIf b } =
      c.base + ((if r then c.cr else 0) + (if g then c.cg else 0) + (if b then c.cb else 0)) *
        ((if r && g then c.kRG else 1) * (if g && b then c.kGB else 1) * (if r && b then c.kRB else 1)) := by
  simp only [current_eq_base_add, naiveDraw_fullIf, attenuation, comboFactor_fullIf]

/-! ### The remap sentinels (rules R83, R97) -/

theorem State.resolve_of_disconnected {s : State} {map : Bool} {i : Nat} (h : s.sourceIndex map i = -2) (pix : Bool) :
    s.resolve map pix i = .disc := by
  simp [State.resolve, h]

theorem State.resolve_of_unused {s : State} {map : Bool} {i : Nat} (h : s.sourceIndex map i = -1) (pix : Bool) :
    s.resolve map pix i = .off := by
  simp [State.resolve, h]

theorem State.slotAmps_of_disconnected {s : State} {map : Bool} {i : Nat} (h : s.sourceIndex map i = -2) (pix : Bool) :
    s.slotAmps map pix i = 0 := by
  rw [State.slotAmps, State.resolve_of_disconnected h, slotCurrent]

theorem State.slotAmps_of_unused {s : State} {map : Bool} {i : Nat} (h : s.sourceIndex map i = -1) (pix : Bool) :
    s.slotAmps map pix i = s.cfg.cal.base := by
  rw [State.slotAmps, State.resolve_of_unused h, slotCurrent]

/-- Settles O28: the closed forms are `current_fullIf`, the bounds come from the naive sum and its attenuation. -/
theorem currentModelProperties : Obligations.CurrentModelProperties := by
  intro c
  have full := current_fullIf c
  refine ⟨?_, ?_, ?_, ?_, ?_, ?_, ?_, ?_, fun hc v => ⟨base_le_current hc v, current_le_base_add_naiveDraw hc v⟩,
    fun hc => ?_, ?_⟩
  · simpa [fullIf] using full false false false
  · simpa [fullIf] using full true false false
  · simpa [fullIf] using full false true false
  · simpa [fullIf] using full false false true
  · simpa [fullIf, mul_assoc] using full true true true
  · simpa [fullIf] using full true true false
  · simpa [fullIf] using full false true true
  · simpa [fullIf] using full true false true
  · calc current c { r := 255, g := 255, b := 255 }
        ≤ c.base + naiveDraw c { r := 255, g := 255, b := 255 } := current_le_base_add_naiveDraw hc _
      _ = c.base + (c.cr + c.cg + c.cb) := congrArg (c.base + ·) (naiveDraw_fullIf c true true true)
      _ = c.cr + c.cg + c.cb + c.base := add_comm _ _
  · rintro s map pix i rfl
    exact ⟨fun h => State.slotAmps_of_disconnected h pix, fun h => State.slotAmps_of_unused h pix⟩

end Sys2Proof.Machine
end

section
/-! Pin configuration: what SET_PIN stores, and the trailer it renders again (rules R90, R91). -/

namespace Sys2Proof.Machine

/-! ### The word -/

/-- The word of SET_PIN with the index placed as a 32-bit number (rule R90); in this form the literal is a `Nat` cast. -/
theorem encode_setPin_eq {idx : Nat} (hidx : idx < 2 ^ 8) (mask : Byte) :
    encode (.setPin idx mask) = 0x60000000 ||| (BitVec.ofNat 32 idx <<< 8) ||| mask.setWidth 32 := by
  have hfield : (BitVec.ofNat 8 idx).setWidth 32 = BitVec.ofNat 32 idx :=
    BitVec.setWidth_ofNat_of_le_of_lt (by decide) hidx
  rw [encode, cwPlace, hfield]
  rfl

/-! ### The checks -/

/-- SET_PIN refuses an index above 7 and a zero mask (rule R90). -/
theorem execSetPin_of_illegal {idx : Nat} {mask : Byte} (h : 7 < idx ∨ mask = 0) (s : State) :
    execSetPin idx mask s = .next (s.raise .invalidParameter) := by
  unfold execSetPin
  split
  · next hidx => rw [if_pos (h.resolve_left (by omega))]
  · rfl

/-- Past its checks SET_PIN assigns the pin and reports OK (rules R90, R91). -/
theorem execSetPin_of_legal (k : Strand) {mask : Byte} (h : mask ≠ 0) (s : State) :
    execSetPin k.val mask s = .next ((s.assignPin k mask).done .ok) := by
  rw [execSetPin, dif_pos k.isLt, if_neg h]

/-! ### The effect -/

theorem State.assignPin_of_noTrailer {s : State} {k : Strand} (h : ¬ (k = 7 ∧ s.opened = true)) (mask : Byte) :
    s.assignPin k mask = s.setPin k mask := if_neg h

theorem State.assignPin_clock_of_open {s : State} (h : s.opened = true) (mask : Byte) :
    s.assignPin 7 mask = (s.setPin 7 mask).latch := if_pos ⟨rfl, h⟩

/-- Assigning a pin writes `PINMAP` and `OUT` and nothing else. -/
theorem State.assignPin_frame (s : State) (k : Strand) (mask : Byte) :
    s.assignPin k mask = { s with pinmap := (s.assignPin k mask).pinmap, out := (s.assignPin k mask).out } := by
  unfold State.assignPin
  split <;> rfl

/-- The mask of a strand after a pin is assigned: LATCH leaves `PINMAP`. -/
theorem State.assignPin_pin (s : State) (k j : Strand) (mask : Byte) :
    (s.assignPin k mask).pin j = if j = k then mask else s.pin j := by
  rw [← State.setPin_pin]
  unfold State.assignPin
  split <;> rfl

/-- The bytes after the clock pin moves while Open: the trailer of the new mask, nothing else (rules R91, R143). -/
theorem outByte_assignPin_clock {s : State} (h : s.opened = true) (mask : Byte) (a : Nat) :
    outByte (s.assignPin 7 mask).out a =
      if s.P * s.BPS ≤ a ∧ a < s.L then latchByte s.HW mask (a - s.P * s.BPS) else outByte s.out a := by
  rw [State.assignPin_clock_of_open h, outByte_latch, State.setPin_CLK, if_pos rfl]
  rfl

/-- Settles O24: the word is the encoding, the checks have one answer each, and `assignPin` says what a legal one writes. -/
theorem setPinStoresTheMask : Obligations.SetPinStoresTheMask := by
  refine ⟨fun idx mask hidx => ?_, fun s idx mask => ⟨fun illegal => execSetPin_of_illegal illegal s, ?_⟩⟩
  · rw [← encode_setPin_eq hidx]
    exact decodeOfEncodeIsTheInstruction (.setPin idx mask) (decide_eq_true hidx)
  · rintro k rfl legal
    refine ⟨(s.assignPin k mask).done .ok, execSetPin_of_legal k legal s, ?_, (s.assignPin_pin k · mask), ?_, ?_⟩
    · exact congrArg (State.done · .ok) (s.assignPin_frame k mask)
    · intro noTrailer
      have hk : ¬ (k = 7 ∧ s.opened = true) := fun ⟨hk, opened⟩ => noTrailer ⟨congrArg Fin.val hk, opened⟩
      rw [State.done_out, State.assignPin_of_noTrailer hk, State.setPin_out]
    · rintro ⟨hk, opened⟩
      obtain rfl : k = 7 := Fin.ext hk
      exact outByte_assignPin_clock opened mask

end Sys2Proof.Machine
end

section
/-! What each physical slot shows and draws, whatever the frame (rules R97, R99, R105). -/

namespace Sys2Proof.Machine

/-- The off word (rule R99): ones in the control byte only. -/
theorem pack_offRgb : pack offRgb = 0xFF000000 := by decide

/-- An entry that is no sentinel shows its logical pixel, or nothing without a pixel buffer (rule R97). -/
theorem State.resolve_of_logical {s : State} {map : Bool} {i : Nat} (h : 0 ≤ s.sourceIndex map i) (pix : Bool) :
    s.resolve map pix i = if pix then .lit (s.pixAt (s.sourceIndex map i).toNat) else .off := by
  unfold State.resolve
  rw [if_neg (by omega), if_neg (by omega)]

/-- Without a pixel buffer no slot is lit, whatever its entry. -/
theorem State.resolve_ne_lit (s : State) (map : Bool) (i : Nat) (v : Pixel) : s.resolve map false i ≠ .lit v := by
  unfold State.resolve
  dsimp only
  split
  · nofun
  · split <;> nofun

/-- A slot that is not lit has the off word, whatever the gamma table holds (rule R99). -/
theorem State.slotWord_of_unlit {s : State} {map pix : Bool} {i : Nat} (h : ∀ v, s.resolve map pix i ≠ .lit v) :
    s.slotWord map pix i = 0xFF000000 := by
  rw [State.slotWord, ← pack_offRgb]
  cases hk : s.resolve map pix i with
  | lit v => exact absurd hk (h v)
  | off => rfl
  | disc => rfl

/-- A logical slot without a pixel buffer draws the baseline (rule R105). -/
theorem State.slotAmps_without_pixels {s : State} {map : Bool} {i : Nat} (h : 0 ≤ s.sourceIndex map i) :
    s.slotAmps map false i = s.cfg.cal.base := by
  rw [State.slotAmps, State.resolve_of_logical h]
  rfl

/-- Settles O26: the kind `State.resolve` gives each entry, and the word and the current of that kind. -/
theorem slotWordAndCurrent : Obligations.SlotWordAndCurrent := by
  intro s map pix i e he
  obtain rfl : e = s.sourceIndex map i := he
  refine ⟨fun h => ⟨?_, State.slotAmps_of_disconnected h pix⟩, fun h => ⟨?_, State.slotAmps_of_unused h pix⟩,
    fun h hp => ?_, fun h hp v c hv hc => ?_⟩
  · exact State.slotWord_of_unlit fun v => by rw [State.resolve_of_disconnected h]; nofun
  · exact State.slotWord_of_unlit fun v => by rw [State.resolve_of_unused h]; nofun
  · subst hp
    exact ⟨State.slotWord_of_unlit (s.resolve_ne_lit map i), State.slotAmps_without_pixels h⟩
  · subst hp hv hc
    rw [State.slotWord, State.slotAmps, State.resolve_of_logical h]
    exact ⟨rfl, rfl⟩

end Sys2Proof.Machine
end

section
/-! ENCODE as a whole: its checks, the frame it leaves, and what a frame does not depend on (rules R96, R103, R114). -/

namespace Sys2Proof.Machine

/-- Settles O36: past `frameLegal_iff` this is the model's law of a refused frame. -/
theorem encodeChecksFirst : Obligations.EncodeChecksFirst :=
  fun s st map pix h => execEncode_of_not_legal s st map pix (mt (frameLegal_iff s map pix).1 h)

/-! ### The state a complete frame leaves -/

/-- The bytes of `OUT` after a complete frame (rules R103, R104). -/
theorem State.outByte_framesTo (s : State) (map pix : Bool) (r : Stats) (a : Nat) :
    outByte (s.framesTo map pix r).out a =
      if a < s.P * s.BPS then regionByte s (fun k p => s.slotWord map pix (slotIndex s.P k p)) a else outByte s.out a :=
  outByte_renderOut s _ a

/-- The currents after a complete frame (rule R105). -/
theorem State.framesTo_cura_find (s : State) (map pix : Bool) (r : Stats) (i : Nat) :
    (s.framesTo map pix r).cura.find i = if i < s.NSLOT then some (s.slotAmps map pix i) else s.cura.find i :=
  renderCura_find s map pix i

/-- The record a complete frame leaves: updated by the STAT phase, or as it was without statistics (rules R113, R135). -/
def State.frameStats (s : State) (st map pix : Bool) : Stats :=
  if st then s.stats.update (frameBits s.S.val s.L s.HW) s.env.ioUsec s.env.tNow (s.frameAmps map pix) else s.stats

/-- A frame whose checks pass leaves this state, if it ends at all. -/
theorem exec_encodeFrame_of_ok {s t : State} {st map pix : Bool} (ok : s.FrameOk map pix)
    (h : exec (.encodeFrame st map pix) s = .next t) : t = s.framesTo map pix (s.frameStats st map pix) := by
  have legal := (frameLegal_iff s map pix).2 ok
  change execEncode st map pix s = .next t at h
  cases st with
  | false =>
    rw [execEncode_off, if_pos legal] at h
    cases h
    rfl
  | true =>
    rw [execEncode_on, if_pos legal] at h
    split at h
    · cases h
      rfl
    · cases h

/-- Settles O37: without statistics the frame always ends, in `State.framesTo`. -/
theorem encodeRendersTheFrame : Obligations.EncodeRendersTheFrame := by
  intro s map pix ok
  have hexec : exec (.encodeFrame false map pix) s = .next (s.framesTo map pix s.stats) := by
    refine (execEncode_off map pix s).trans ?_
    rw [if_pos ((frameLegal_iff s map pix).2 ok)]
    rfl
  exact ⟨s.framesTo map pix s.stats, hexec, rfl, s.outByte_framesTo map pix _, s.framesTo_cura_find map pix _⟩

/-! ### Frame after frame -/

/-- Settles O42: `State.framesTo` reads the old `OUT` above the pixel region only, and the old `CURA` above the last slot. -/
theorem framesCarryNothingOver : Obligations.FramesCarryNothingOver := by
  intro s t u o c st map pix ok ht hu
  obtain rfl := exec_encodeFrame_of_ok ok ht
  obtain rfl := exec_encodeFrame_of_ok (s := { s with out := o, cura := c }) ok hu
  refine ⟨fun a ha => ?_, fun i hi => ?_, rfl, rfl⟩
  · rw [State.outByte_framesTo, State.outByte_framesTo, if_pos ha]
    exact if_pos ha
  · rw [State.framesTo_cura_find, State.framesTo_cura_find, if_pos hi]
    exact if_pos hi

/-- A frame over a frame with the same inputs leaves every byte of `OUT` as it is. -/
theorem State.outByte_framesTo_framesTo (s : State) (map pix : Bool) (r r' : Stats) (a : Nat) :
    outByte ((s.framesTo map pix r).framesTo map pix r').out a = outByte (s.framesTo map pix r).out a := by
  refine ((s.framesTo map pix r).outByte_framesTo map pix r' a).trans ?_
  split
  · next ha => exact ((s.outByte_framesTo map pix r a).trans (if_pos ha)).symm
  · rfl

/-- A frame over a frame with the same inputs leaves every element of `CURA` as it is. -/
theorem State.framesTo_framesTo_cura_find (s : State) (map pix : Bool) (r r' : Stats) (i : Nat) :
    ((s.framesTo map pix r).framesTo map pix r').cura.find i = (s.framesTo map pix r).cura.find i := by
  refine ((s.framesTo map pix r).framesTo_cura_find map pix r' i).trans ?_
  split
  · next hi => exact ((s.framesTo_cura_find map pix r i).trans (if_pos hi)).symm
  · rfl

/-- Settles O43: both frames pass their checks or neither does, since a frame writes nothing that the checks read. -/
theorem repeatedEncodeIsStable : Obligations.RepeatedEncodeIsStable := by
  intro s t u st st' map pix ht hu
  by_cases ok : s.FrameOk map pix
  · obtain rfl := exec_encodeFrame_of_ok ok ht
    obtain rfl := exec_encodeFrame_of_ok (s := s.framesTo map pix _) ok hu
    exact ⟨s.outByte_framesTo_framesTo map pix _ _, s.framesTo_framesTo_cura_find map pix _ _⟩
  · cases (encodeChecksFirst s st map pix ok).symm.trans ht
    cases (encodeChecksFirst { s with status := .invalidParameter } st' map pix ok).symm.trans hu
    exact ⟨fun _ => rfl, fun _ => rfl⟩

/-- Settles O44: no slot is lit, so the words are those of the all-off frame, whose closed form `regionByte_off` gives. -/
theorem frameWithoutPixelsIsAllOff : Obligations.FrameWithoutPixelsIsAllOff := by
  intro s t st map ok ht
  obtain rfl := exec_encodeFrame_of_ok ok ht
  have hword (i : Nat) : s.slotWord map false i = 0xFF000000 := State.slotWord_of_unlit (s.resolve_ne_lit map i)
  refine ⟨fun k p => hword _, fun a ha => ?_, ?_⟩
  · simp only [State.outByte_framesTo, if_pos ha, hword, ← pack_offRgb, regionByte_off]
  · rintro rfl i hi
    have hlogical : 0 ≤ s.sourceIndex false i := Int.natCast_nonneg i
    rw [State.framesTo_cura_find, if_pos hi, State.slotAmps_without_pixels hlogical]

end Sys2Proof.Machine
end

section
/-! The waveform of a frame pin by pin: unused pins, and the decoder's round trip (rules R108, R109). -/

namespace Sys2Proof.Machine

/-! ### Pins of the data bits and of the trailer -/

/-- A pin is high in the data bits when some rendered strand that drives it has the word bit set (rule R103). -/
theorem getLsbD_dataBits (s : State) (word : Strand → Nat → Word) (p b n : Nat) :
    (dataBits s word p b).getLsbD n = true ↔
      ∃ k : Strand, k.val < s.S.val ∧ (word k p).getLsbD b = true ∧ (s.pin k).getLsbD n = true := by
  have hite (k : Strand) : (if (word k p).getLsbD b = true then s.pin k else 0).getLsbD n = true ↔
      (word k p).getLsbD b = true ∧ (s.pin k).getLsbD n = true := by
    split <;> simp [*]
  have h0 : (0 : Byte).getLsbD n = false := BitVec.getLsbD_zero
  rw [dataBits, getLsbD_foldl_or, h0, Bool.false_or, List.any_eq_true]
  exact exists_congr fun k => and_congr (mem_strandsBelow s.S k) (hite k)

/-- The clock bits that a byte of the pixel region carries besides its data bits, as CLEAR left them (rule R101). -/
theorem regionByte_eq (s : State) (word : Strand → Nat → Word) (a : Nat) :
    regionByte s word a = latchByte s.HW s.CLK (a % s.BPS) ||| dataBits s word (a / s.BPS) (slotBit s.HW (a % s.BPS)) :=
  (slotBytes_regionByte s word a).symm.trans (slotBytes_getD s word _ _ (Nat.mod_lt _ (bps_pos _)))

/-- A byte of CLEAR or LATCH is 0, or the clock mask in software-clock mode (rules R101, R143). -/
theorem latchByte_cases (hw : Bool) (clk : Byte) (k : Nat) :
    latchByte hw clk k = 0 ∨ hw = false ∧ latchByte hw clk k = clk := by
  unfold latchByte
  cases hw with
  | true => exact .inl rfl
  | false =>
    rw [if_neg Bool.false_ne_true]
    split
    · exact .inl rfl
    · exact .inr ⟨rfl, rfl⟩

/-- A pin outside the clock mask is low in every byte of CLEAR or LATCH. -/
theorem getLsbD_latchByte {hw : Bool} {clk : Byte} {n : Nat} (h : hw = false → clk.getLsbD n = false) (k : Nat) :
    (latchByte hw clk k).getLsbD n = false := by
  obtain h0 | ⟨hsw, hclk⟩ := latchByte_cases hw clk k
  · rw [h0]
    exact BitVec.getLsbD_zero
  · rw [hclk, h hsw]

/-- The trailer after a frame is the one before it (rule R104). -/
theorem outByte_framesTo_trailer {s : State} (hs : s.SessionInv) (ho : s.opened = true) (map pix : Bool) (r : Stats)
    {k : Nat} (hk : k < s.BPS) : outByte (s.framesTo map pix r).out (s.P * s.BPS + k) = latchByte s.HW s.CLK k :=
  (outByte_renderOut_trailer s _ k).trans (hs.trailer ho k hk)

/-- Settles O45: such a pin is high neither in a data bit nor in a clock bit, and the trailer has clock bits only. -/
theorem unusedPinsStayLow : Obligations.UnusedPinsStayLow := by
  intro s t st map pix n hs ok ht hstrands hclk a ha
  obtain rfl := exec_encodeFrame_of_ok ok ht
  obtain ⟨ho, -⟩ := ok
  have hlatch := getLsbD_latchByte hclk
  have hdata (word : Strand → Nat → Word) (p b : Nat) : (dataBits s word p b).getLsbD n = false := by
    rw [← Bool.not_eq_true, getLsbD_dataBits]
    rintro ⟨k, hk, -, hpin⟩
    exact absurd hpin (by simp [hstrands k hk])
  obtain hregion | htrailer := Nat.lt_or_ge a (s.P * s.BPS)
  · rw [State.outByte_framesTo, if_pos hregion, regionByte_eq, BitVec.getLsbD_or, hlatch, hdata, Bool.false_or]
  · obtain ⟨k, rfl⟩ := Nat.exists_eq_add_of_le htrailer
    have hL := s.L_eq
    rw [outByte_framesTo_trailer hs ho map pix _ (by omega), hlatch]

/-! ### The round trip (rule R108) -/

/-- The byte of a pixel slot that carries word bit `b`; with `second` the other byte of its pair (rule R35). -/
def slotOffset (hw second : Bool) (b : Nat) : Nat :=
  if hw then 31 - b else 2 * (31 - b) + if second then 1 else 0

theorem slotOffset_lt (hw second : Bool) (b : Nat) : slotOffset hw second b < bps hw := by
  unfold slotOffset bps
  split_ifs <;> omega

/-- The byte of a pixel slot carries the bit it was asked for. -/
theorem slotBit_slotOffset (hw second : Bool) {b : Nat} (hb : b < 32) : slotBit hw (slotOffset hw second b) = b := by
  unfold slotBit slotOffset
  split_ifs <;> omega

/-- The decoder's address is the slot's base and the offset in it. -/
theorem bitOffset_eq (hw second : Bool) (p b : Nat) :
    bitOffset hw p b + (if second && !hw then 1 else 0) = p * bps hw + slotOffset hw second b := by
  unfold bitOffset slotOffset bps
  cases hw with
  | true => simp; omega
  | false => simp; omega

/-- Bit `b` of the decoder's word is its test of the byte that carries it. -/
theorem getLsbD_decodeWord (hw second : Bool) (out : Memory Byte) (mask : Byte) (p : Nat) {b : Nat} (hb : b < 32) :
    (decodeWord hw second out mask p).getLsbD b =
      (outByte out (p * bps hw + slotOffset hw second b) &&& mask == mask) := by
  rw [← bitOffset_eq, decodeWord]
  refine BitVec.getLsbD_ofBoolListLE.trans ?_
  simp [hb]

/-- Under the condition of rule R108 the strand's mask cuts its own bit out of the data bits. -/
theorem dataBits_and_pin {s : State} {k : Strand} (hk : k.val < s.S.val) (alone : s.maskAlone k)
    (word : Strand → Nat → Word) (p b : Nat) :
    dataBits s word p b &&& s.pin k = if (word k p).getLsbD b then s.pin k else 0 := by
  obtain ⟨hdisjoint, -⟩ := alone
  refine BitVec.eq_of_getLsbD_eq fun n _ => ?_
  have howner (j : Strand) (hj : j.val < s.S.val) (hjn : (s.pin j).getLsbD n = true)
      (hkn : (s.pin k).getLsbD n = true) : j = k := by
    by_contra hne
    have hbit := congrArg (BitVec.getLsbD · n) (hdisjoint j hj hne)
    simp [hjn, hkn] at hbit
  rw [Bool.eq_iff_iff, BitVec.getLsbD_and, Bool.and_eq_true, getLsbD_dataBits]
  constructor
  · rintro ⟨⟨j, hj, hword, hjn⟩, hkn⟩
    obtain rfl := howner j hj hjn hkn
    rw [if_pos hword]
    exact hkn
  · intro h
    split at h
    · next hword => exact ⟨⟨k, hk, hword, h⟩, h⟩
    · simp at h

/-- Under the condition of rule R108 the clock bits of a byte do not touch the strand's mask. -/
theorem latchByte_and_pin {s : State} {k : Strand} (h : s.HW = false → s.pin k &&& s.CLK = 0) (j : Nat) :
    latchByte s.HW s.CLK j &&& s.pin k = 0 := by
  obtain h0 | ⟨hsw, hclk⟩ := latchByte_cases s.HW s.CLK j
  · rw [h0]
    exact BitVec.zero_and
  · rw [hclk, BitVec.and_comm, h hsw]

/-- Under the condition of rule R108 the strand's mask cuts its own word bit out of a byte of the pixel region. -/
theorem regionByte_and_pin {s : State} {k : Strand} (hk : k.val < s.S.val) (alone : s.maskAlone k)
    (word : Strand → Nat → Word) (a : Nat) : regionByte s word a &&& s.pin k =
      if (word k (a / s.BPS)).getLsbD (slotBit s.HW (a % s.BPS)) then s.pin k else 0 := by
  have ⟨_, hclock⟩ := alone
  rw [regionByte_eq, BitVec.and_or_distrib_right, latchByte_and_pin hclock, dataBits_and_pin hk alone]
  exact BitVec.zero_or

/-- Decoding a pixel slot of a complete frame gives the strand's word bit by bit (rule R108). -/
theorem decodeWord_framesTo {s : State} {k : Strand} {p : Nat} (hk : k.val < s.S.val) (hne : s.pin k ≠ 0)
    (hp : p < s.P) (alone : s.maskAlone k) (map pix second : Bool) (r : Stats) :
    decodeWord s.HW second (s.framesTo map pix r).out (s.pin k) p = s.slotWord map pix (slotIndex s.P k p) := by
  refine BitVec.eq_of_getLsbD_eq fun b hb => ?_
  have hoff : slotOffset s.HW second b < s.BPS := slotOffset_lt s.HW second b
  have hpos : 0 < s.BPS := bps_pos s.HW
  have hdiv : (p * s.BPS + slotOffset s.HW second b) / s.BPS = p := by
    rw [mul_comm, Nat.mul_add_div hpos, Nat.div_eq_of_lt hoff, Nat.add_zero]
  have hmod : (p * s.BPS + slotOffset s.HW second b) % s.BPS = slotOffset s.HW second b := by
    rw [Nat.mul_add_mod', Nat.mod_eq_of_lt hoff]
  have hin : p * s.BPS + slotOffset s.HW second b < s.P * s.BPS := (Nat.div_lt_iff_lt_mul hpos).1 (hdiv.symm ▸ hp)
  rw [getLsbD_decodeWord _ _ _ _ _ hb]
  change (outByte _ (p * s.BPS + slotOffset s.HW second b) &&& _ == _) = _
  rw [State.outByte_framesTo, if_pos hin, regionByte_and_pin hk alone, hdiv, hmod, slotBit_slotOffset _ _ hb]
  split
  · next h => simp [h]
  · next h => simpa [h] using Ne.symm hne

/-- Decoding the trailer gives the word 0: it holds no data bit (rule R108). -/
theorem decodeWord_framesTo_trailer {s : State} {k : Strand} (hs : s.SessionInv) (ho : s.opened = true)
    (hne : s.pin k ≠ 0) {second : Bool} (h : second = true → s.HW = false → s.pin k &&& s.CLK = 0)
    (map pix : Bool) (r : Stats) : decodeWord s.HW second (s.framesTo map pix r).out (s.pin k) s.P = 0 := by
  have hclock (b : Nat) : latchByte s.HW s.CLK (slotOffset s.HW second b) &&& s.pin k = 0 := by
    cases second with
    | true => exact latchByte_and_pin (h rfl) _
    | false =>
      have h0 : latchByte s.HW s.CLK (slotOffset s.HW false b) = 0 := by
        cases s.HW <;> simp [latchByte, slotOffset]
      rw [h0]
      exact BitVec.zero_and
  refine BitVec.eq_of_getLsbD_eq fun b hb => ?_
  rw [getLsbD_decodeWord _ _ _ _ _ hb]
  refine (congrArg (· &&& s.pin k == s.pin k)
    (outByte_framesTo_trailer hs ho map pix r (slotOffset_lt s.HW second b))).trans ?_
  rw [hclock]
  simpa using Ne.symm hne

/-- Settles O41: a pixel slot decodes to its word, the trailer to 0; the session and the pins are as they were. -/
theorem waveformDecodesToTheWord : Obligations.WaveformDecodesToTheWord := by
  intro s t st map pix second k p ok ht hk hne
  obtain rfl := exec_encodeFrame_of_ok ok ht
  obtain ⟨ho, -⟩ := ok
  exact ⟨fun hp alone => decodeWord_framesTo hk hne hp alone map pix second _,
    fun hs h => decodeWord_framesTo_trailer hs ho hne h map pix _⟩

end Sys2Proof.Machine
end

section
/-! A successful OPEN: the session, and every byte of the all-off frame it hands over (rules R110, R142 to R144). -/

namespace Sys2Proof.Machine

/-- The pixel region after LATCH and the all-off render, on any session (rules R110, R144). -/
theorem outByte_allOff_region (s : State) {a : Nat} (ha : a < s.P * s.BPS) :
    outByte s.latch.renderAllOff.out a = allOffByte s.HW s.CLK (allMasks s) a :=
  (outByte_renderOut s.latch _ a).trans ((if_pos ha).trans (regionByte_off s.latch a))

/-- The trailer after LATCH and the all-off render, on any session (rules R104, R143). -/
theorem outByte_allOff_trailer (s : State) {k : Nat} (hk : k < s.BPS) :
    outByte s.latch.renderAllOff.out (s.P * s.BPS + k) = latchByte s.HW s.CLK k :=
  (outByte_renderOut_trailer s.latch _ k).trans (outByte_latch_trailer s hk)

/-- The `L` bytes of that frame are `openFrame`, whatever `OUT` held before. -/
theorem outRun_allOff (s : State) :
    outRun s.latch.renderAllOff.out 0 s.L = openFrame s.HW s.P s.CLK (allMasks s) := by
  rw [outRun_zero, openFrame]
  refine List.map_congr_left fun a ha => ?_
  have hL := s.L_eq
  have ha : a < s.L := List.mem_range.1 ha
  split
  · next hregion => exact outByte_allOff_region s hregion
  · next htrailer =>
    obtain ⟨k, rfl⟩ := Nat.exists_eq_add_of_le (Nat.not_lt.1 htrailer)
    rw [Nat.add_sub_cancel_left]
    exact outByte_allOff_trailer s (Nat.lt_of_add_lt_add_left (hL ▸ ha))

/-- Settles O31: the session is `State.opensTo`, and its frame that of the allocated session. -/
theorem openCreatesASession : Obligations.OpenCreatesASession := by
  intro s hw n ppix closed ok good
  obtain ⟨t, ht, hnone, hdivisor, hbaud, -, -, hS⟩ := exec_openSession_good closed ok good
  cases (execOpen_good closed ok good).symm.trans ht
  refine ⟨s.opensTo hw n ppix, ht, rfl, hnone, hdivisor, hbaud, hS, rfl, fun a ha => ?_, fun k hk => ?_, fun i => rfl,
    ?_, ?_⟩
  · exact outByte_allOff_region (s.allocate hw n ppix) ha
  · exact outByte_allOff_trailer (s.allocate hw n ppix) hk
  · exact congrArg (· :: s.handed) (outRun_zero _ _)
  · exact congrArg (· :: s.handed) (outRun_allOff (s.allocate hw n ppix))

end Sys2Proof.Machine
end

section
/-! The loops of the pseudocode's render phase, and that the machine's render leaves what they leave (rule R115). -/

namespace Sys2Proof.Machine

/-- A loop each of whose passes leaves the byte at `a` but for pass `c`: that one pass changes it. -/
theorem outByte_foldl_range {f : Memory Byte → Nat → Memory Byte} {a c : Nat} {g : Byte → Byte} (n : Nat)
    (h : ∀ o, ∀ j < n, outByte (f o j) a = if j = c then g (outByte o a) else outByte o a) (out : Memory Byte) :
    outByte ((List.range n).foldl f out) a = if c < n then g (outByte out a) else outByte out a := by
  induction n with
  | zero => rfl
  | succ n ih =>
    rw [List.range_succ, List.foldl_concat, h _ n (Nat.lt_succ_self n), ih fun o j hj => h o j (Nat.lt_succ_of_lt hj)]
    obtain hlt | rfl | hgt := lt_trichotomy c n
    · rw [if_neg hlt.ne', if_pos hlt, if_pos (Nat.lt_succ_of_lt hlt)]
    · rw [if_pos rfl, if_neg (Nat.lt_irrefl c), if_pos (Nat.lt_succ_self c)]
    · rw [if_neg hgt.ne, if_neg hgt.asymm, if_neg (Nat.not_lt.2 hgt)]

/-! ### One pixel slot -/

/-- The pass of CLEAR and of TRANSPOSE that writes byte `k` of a pixel slot (rules R101, R102). -/
def slotPass (hw : Bool) (k : Nat) : Nat := if hw then k else k / 2

theorem slotPass_lt (hw : Bool) (a : Nat) : slotPass hw (a % bps hw) < 32 := by
  unfold slotPass bps
  split <;> omega

/-- The address pass `j` of slot `q` writes with the hardware clock. -/
theorem eq_hwAddress_iff {q j a : Nat} (hj : j < 32) :
    a = 32 * q + j ↔ j = slotPass true (a % bps true) ∧ q = a / bps true := by
  simp only [slotPass, bps, if_true]
  omega

/-- The two addresses pass `j` of slot `q` writes with the software clock. -/
theorem eq_swAddress_iff {q j a : Nat} (hj : j < 32) :
    a = 64 * q + 2 * j ∨ a = 64 * q + 2 * j + 1 ↔ j = slotPass false (a % bps false) ∧ q = a / bps false := by
  simp only [slotPass, bps, Bool.false_eq_true, if_false]
  omega

/-- The bytes after a pass of CLEAR with the software clock: `0, CLK` at an even address. -/
theorem outByte_write_clockPair (out : Memory Byte) {b : Nat} (hb : b % 2 = 0) (clk : Byte) (a : Nat) :
    outByte (Memory.write outUnlisted (Memory.write outUnlisted out b 0) (b + 1) clk) a =
      if a = b ∨ a = b + 1 then latchByte false clk a else outByte out a := by
  rw [outByte_write, outByte_write]
  split
  · next h => simp [h, latchByte, Nat.add_mod, hb]
  · next h =>
    split
    · next h' => simp [h', latchByte, hb]
    · next h' => rw [if_neg (not_or.2 ⟨h', h⟩)]

/-- The bytes after the pseudocode's `CLEAR(q)` (rule R101). -/
theorem outByte_refClear (hw : Bool) (clk : Byte) (out : Memory Byte) (q a : Nat) :
    outByte (refClear hw clk out q) a = if q = a / bps hw then latchByte hw clk (a % bps hw) else outByte out a := by
  unfold refClear
  refine (outByte_foldl_range (c := slotPass hw (a % bps hw))
    (g := fun v => if q = a / bps hw then latchByte hw clk (a % bps hw) else v) 32 (fun o j hj => ?_) out).trans
    (if_pos (slotPass_lt hw a))
  rw [← ite_and]
  cases hw with
  | true =>
    simp only [if_true, outByte_write, eq_hwAddress_iff hj]
    rfl
  | false =>
    have hparity : latchByte false clk (a % bps false) = latchByte false clk a := by
      simp [latchByte, bps, Nat.mod_mod_of_dvd]
    rw [if_neg Bool.false_ne_true, outByte_write_clockPair o (by omega), hparity]
    simp only [eq_swAddress_iff hj]

theorem outByte_refOr (out : Memory Byte) (b : Nat) (m : Byte) (a : Nat) :
    outByte (refOr out b m) a = if a = b then outByte out a ||| m else outByte out a := by
  rw [refOr, outByte_write]
  split
  · next h => rw [h]
  · rfl

/-- The bytes after a pass of TRANSPOSE with the software clock: both bytes of the pair. -/
theorem outByte_refOr_pair (out : Memory Byte) (b : Nat) (m : Byte) (a : Nat) :
    outByte (refOr (refOr out b m) (b + 1) m) a = if a = b ∨ a = b + 1 then outByte out a ||| m else outByte out a := by
  rw [outByte_refOr, outByte_refOr]
  obtain rfl | hne := eq_or_ne a b
  · simp
  · simp [hne]

/-- The word bit of the pass that writes a byte is the bit the byte carries (rule R35). -/
theorem slotBit_eq (hw : Bool) (k : Nat) : slotBit hw k = 31 - slotPass hw k := rfl

/-- The bytes after the pseudocode's `TRANSPOSE(s, p, W)` (rule R102). -/
theorem outByte_refTranspose (hw : Bool) (m : Byte) (p : Nat) (w : Word) (out : Memory Byte) (a : Nat) :
    outByte (refTranspose hw m p w out) a =
      if p = a / bps hw then outByte out a ||| (if w.getLsbD (slotBit hw (a % bps hw)) then m else 0)
      else outByte out a := by
  unfold refTranspose
  refine (outByte_foldl_range (c := slotPass hw (a % bps hw))
    (g := fun v => if p = a / bps hw then v ||| (if w.getLsbD (slotBit hw (a % bps hw)) then m else 0) else v) 32
    (fun o j hj => ?_) out).trans (if_pos (slotPass_lt hw a))
  rw [← ite_and]
  by_cases hbit : w.getLsbD (31 - j) = true
  · rw [if_pos hbit]
    cases hw with
    | true =>
      rw [if_pos rfl, outByte_refOr]
      refine if_ctx_congr (eq_hwAddress_iff hj) (fun h => ?_) fun _ => rfl
      rw [slotBit_eq, ← h.1, if_pos hbit]
    | false =>
      rw [if_neg Bool.false_ne_true, outByte_refOr_pair]
      refine if_ctx_congr (eq_swAddress_iff hj) (fun h => ?_) fun _ => rfl
      rw [slotBit_eq, ← h.1, if_pos hbit]
  · rw [if_neg hbit]
    split
    · next h =>
      rw [slotBit_eq, ← h.1, if_neg hbit]
      exact BitVec.or_zero.symm
    · rfl

/-! ### The pixel region -/

/-- What the loop over the positions of strand `k` makes of a byte `v` at address `a`: a byte of the pixel region takes in
the strand's data bit. -/
def strandPass (s : State) (word : Strand → Nat → Word) (a : Nat) (v : Byte) (k : Strand) : Byte :=
  if a / bps s.HW < s.P then
    v ||| if (word k (a / bps s.HW)).getLsbD (slotBit s.HW (a % bps s.HW)) then s.pin k else 0
  else v

/-- The bytes after `for q: CLEAR(q)`. -/
theorem outByte_foldl_refClear (s : State) (a : Nat) :
    outByte ((List.range s.P).foldl (refClear s.HW s.CLK) s.out) a =
      if a / bps s.HW < s.P then latchByte s.HW s.CLK (a % bps s.HW) else outByte s.out a :=
  outByte_foldl_range (c := a / bps s.HW) (g := fun _ => latchByte s.HW s.CLK (a % bps s.HW)) s.P
    (fun o q _ => outByte_refClear s.HW s.CLK o q a) s.out

/-- The bytes after the loop over the positions of one strand. -/
theorem outByte_foldl_refTranspose (s : State) (word : Strand → Nat → Word) (k : Strand) (out : Memory Byte) (a : Nat) :
    outByte ((List.range s.P).foldl (fun o p => refTranspose s.HW (s.pin k) p (word k p) o) out) a =
      strandPass s word a (outByte out a) k := by
  refine outByte_foldl_range (c := a / bps s.HW) (g := fun v => v |||
    if (word k (a / bps s.HW)).getLsbD (slotBit s.HW (a % bps s.HW)) then s.pin k else 0) s.P (fun o p _ => ?_) out
  rw [outByte_refTranspose]
  exact if_ctx_congr Iff.rfl (fun h => by rw [h]) fun _ => rfl

/-- All strands' loops over the cleared slots: the closed form of rule R103 in the pixel region, nothing changed above it. -/
theorem foldl_strandPass (s : State) (word : Strand → Nat → Word) (a : Nat) :
    (strandsBelow s.S).foldl (strandPass s word a)
      (if a / bps s.HW < s.P then latchByte s.HW s.CLK (a % bps s.HW) else outByte s.out a) =
      if a < s.P * s.BPS then regionByte s word a else outByte s.out a := by
  have hregion : a < s.P * s.BPS ↔ a / bps s.HW < s.P := (Nat.div_lt_iff_lt_mul (bps_pos s.HW)).symm
  simp only [hregion]
  split
  · next h =>
    unfold strandPass
    simp only [if_pos h]
    exact (foldl_or_init _ _ _).trans (regionByte_eq s word a).symm
  · next h => exact List.foldl_fixed' (fun k => if_neg h) _

/-- The first component of the render's loops is the loops over `OUT`. -/
theorem refRender_fst (s : State) (map pix : Bool) :
    (refRender s map pix).1 = (strandsBelow s.S).foldl (fun o k => (List.range s.P).foldl
      (fun o p => refTranspose s.HW (s.pin k) p (s.slotWord map pix (slotIndex s.P k p)) o) o)
      ((List.range s.P).foldl (refClear s.HW s.CLK) s.out) := by
  unfold refRender
  rw [← List.foldl_hom (g₂ := fun o kp => refTranspose s.HW (s.pin kp.1) kp.2
    (s.slotWord map pix (slotIndex s.P kp.1 kp.2)) o) Prod.fst fun _ _ => rfl]
  simp only [slotOrder, List.foldl_flatMap, List.foldl_map]

/-- The bytes the pseudocode's render leaves: the closed form of rule R103. -/
theorem outByte_refRender (s : State) (map pix : Bool) (a : Nat) :
    outByte (refRender s map pix).1 a = if a < s.P * s.BPS then
      regionByte s (fun k p => s.slotWord map pix (slotIndex s.P k p)) a else outByte s.out a := by
  rw [refRender_fst, ← List.foldl_hom (outByte · a) fun o k => (outByte_foldl_refTranspose s _ k o a).symm,
    outByte_foldl_refClear, foldl_strandPass]

/-! ### The currents -/

/-- Reads after a loop of writes whose element depends on its address only. -/
theorem Memory.find_foldl_write_none {α β : Type} [DecidableEq α] (l : List β) (idx : β → Nat) (f : Nat → α)
    (m : Memory α) (i : Nat) :
    Memory.find (l.foldl (fun m x => Memory.write none m (idx x) (f (idx x))) m) i =
      if i ∈ l.map idx then some (f i) else Memory.find m i := by
  induction l generalizing m with
  | nil => rfl
  | cons x l ih =>
    rw [List.foldl_cons, ih, Memory.find_write_none, List.map_cons]
    by_cases hl : i ∈ l.map idx
    · rw [if_pos hl, if_pos (List.mem_cons_of_mem _ hl)]
    · rw [if_neg hl]
      simp only [List.mem_cons, or_iff_left hl]
      split
      · next h => rw [h]
      · rfl

/-- The slots of a frame, in the order of rule R33, are those below `S·P`. -/
theorem mem_slotOrder_map_slotIndex (S : Fin 9) (P i : Nat) :
    i ∈ (slotOrder S P).map (fun kp => slotIndex P kp.1 kp.2) ↔ i < S.val * P := by
  simp only [slotOrder, List.mem_map, List.mem_flatMap, mem_strandsBelow, List.mem_range, slotIndex]
  constructor
  · rintro ⟨-, ⟨k, hk, p, hp, rfl⟩, rfl⟩
    calc k.val * P + p < (k.val + 1) * P := by rw [Nat.succ_mul]; omega
      _ ≤ S.val * P := Nat.mul_le_mul_right P hk
  · intro hi
    have hP : 0 < P := Nat.pos_of_lt_mul_left hi
    have hk : i / P < S.val := (Nat.div_lt_iff_lt_mul hP).2 hi
    exact ⟨(⟨i / P, by omega⟩, i % P), ⟨_, hk, _, Nat.mod_lt i hP, rfl⟩, Nat.div_add_mod' i P⟩

/-- The currents the pseudocode's render leaves (rule R105). -/
theorem refRender_snd_find (s : State) (map pix : Bool) (i : Nat) :
    (refRender s map pix).2.find i = if i < s.NSLOT then some (s.slotAmps map pix i) else s.cura.find i := by
  unfold refRender
  rw [← List.foldl_hom (g₂ := fun m (kp : Strand × Nat) => Memory.write curaUnlisted m (slotIndex s.P kp.1 kp.2)
    (s.slotAmps map pix (slotIndex s.P kp.1 kp.2))) Prod.snd fun _ _ => rfl]
  refine (Memory.find_foldl_write_none _ (fun kp : Strand × Nat => slotIndex s.P kp.1 kp.2) (s.slotAmps map pix) s.cura i).trans ?_
  exact if_congr (mem_slotOrder_map_slotIndex s.S s.P i) rfl rfl

/-- Settles O40: both renders have the same closed forms. -/
theorem renderRefinesThePseudocode : Obligations.RenderRefinesThePseudocode := by
  intro s map pix
  refine ⟨fun a => ?_, fun i => ?_⟩
  · rw [outByte_refRender, State.renderFrame_out, outByte_renderOut]
  · rw [refRender_snd_find, State.renderFrame_cura, renderCura_find]

end Sys2Proof.Machine
end

section
/-! The STAT phase: the record field by field after an update, the zero rates, and the counters (rules R121 to R137,
R166). -/

namespace Sys2Proof.Machine

theorem frameBits_eq (s : State) : frameBits s.S.val s.L s.HW = s.S.val * (s.P + 1) * 32 := by
  unfold frameBits State.L State.BPS bps
  split
  · exact (Nat.mul_assoc ..).symm
  · have hsoft : s.S.val * ((s.P + 1) * 64) = s.S.val * (s.P + 1) * 32 * 2 := by ring
    rw [hsoft, Nat.mul_div_cancel _ two_pos]

theorem rateOrZero_of_eq_zero (n : ℚ) {d : Nat} (h : d = 0) : rateOrZero n d = 0 := if_neg h.not_gt

theorem usecPerHour_eq : usecPerHour = 3600 * 10 ^ 6 := by norm_num [usecPerHour]

/-! ### The two forms of an update -/

/-- The first frame of a record skips the period group (rule R125). -/
theorem Stats.update_of_first {r : Stats} (first : r.frames = 0) (bits io now : Nat) (sum : ℚ) :
    r.update bits io now sum = (r.throughput bits io).bookkeep sum now := by
  rw [Stats.update, if_neg first.not_gt]

/-- A later frame runs all three groups (rule R133). -/
theorem Stats.update_of_later {r : Stats} (later : 0 < r.frames) (bits io now : Nat) (sum : ℚ) :
    r.update bits io now sum = ((r.throughput bits io).period now).bookkeep sum now := by
  rw [Stats.update, if_pos later]

/-! ### The fields written on every frame -/

section
variable (r : Stats) (bits io now : Nat) (sum : ℚ)

theorem Stats.throughput_bps : (r.throughput bits io).bps = rateOrZero (bits * 10 ^ 6) io := by
  norm_num [Stats.throughput]

theorem Stats.throughput_bpsAvg : (r.throughput bits io).bpsAvg =
    if 0 < r.usecIoTotal + io then ((r.bitsTotal + bits : ℕ) : ℚ) * 10 ^ 6 / (r.usecIoTotal + io : ℕ)
    else (r.throughput bits io).bps := by
  norm_num [Stats.throughput]

@[simp] theorem Stats.update_bits : (r.update bits io now sum).bits = bits := by
  unfold Stats.update
  split <;> rfl

@[simp] theorem Stats.update_usecIo : (r.update bits io now sum).usecIo = io := by
  unfold Stats.update
  split <;> rfl

@[simp] theorem Stats.update_usecIoTotal : (r.update bits io now sum).usecIoTotal = r.usecIoTotal + io := by
  unfold Stats.update
  split <;> rfl

@[simp] theorem Stats.update_bps : (r.update bits io now sum).bps = (r.throughput bits io).bps := by
  unfold Stats.update
  split <;> rfl

@[simp] theorem Stats.update_bitsTotal : (r.update bits io now sum).bitsTotal = r.bitsTotal + bits := by
  unfold Stats.update
  split <;> rfl

@[simp] theorem Stats.update_bpsAvg : (r.update bits io now sum).bpsAvg = (r.throughput bits io).bpsAvg := by
  unfold Stats.update
  split <;> rfl

@[simp] theorem Stats.update_ma : (r.update bits io now sum).ma = sum := rfl

@[simp] theorem Stats.update_maPeak : (r.update bits io now sum).maPeak = max r.maPeak sum := by
  unfold Stats.update
  split <;> rfl

@[simp] theorem Stats.update_lastTime : (r.update bits io now sum).lastTime = now := rfl

@[simp] theorem Stats.update_frames : (r.update bits io now sum).frames = r.frames + 1 := by
  unfold Stats.update
  split <;> rfl

/-! ### The period group -/

theorem Stats.period_fps : (r.period now).fps = rateOrZero (10 ^ 6) (r.period now).usecFrame := by
  norm_num [Stats.period]

theorem Stats.period_fpsAvg :
    (r.period now).fpsAvg = rateOrZero (r.frames * 10 ^ 6) (r.period now).usecFrameTotal := by
  norm_num [Stats.period]

theorem Stats.period_mah : (r.period now).mah = r.ma * (r.period now).usecFrame / (3600 * 10 ^ 6) := by
  rw [← usecPerHour_eq]
  rfl

theorem Stats.period_maAvg : (r.period now).maAvg =
    rateOrZero ((r.period now).mahTotal * 3600 * 10 ^ 6) (r.period now).usecFrameTotal := by
  rw [mul_assoc, ← usecPerHour_eq]
  rfl

end

/-! ### The record ENCODE leaves -/

/-- With its checks passed and a clock that did not step back, ENCODE with statistics ends (rule R136). -/
theorem exec_encodeFrame_of_clock {s : State} {map pix : Bool} (ok : s.FrameOk map pix)
    (clock : 0 < s.stats.frames → s.stats.lastTime ≤ s.env.tNow) :
    exec (.encodeFrame true map pix) s = .next (s.framesTo map pix (s.frameStats true map pix)) := by
  obtain ⟨⟨t, ht⟩, -⟩ | ⟨-, -, later, back⟩ := execEncode_on_cases map pix s
  · exact ht.trans (congrArg _ (exec_encodeFrame_of_ok ok ht))
  · exact absurd (clock later) back.not_ge

/-- The record ENCODE with statistics leaves, when it ends after passing its checks. -/
theorem exec_encodeFrame_stats {s t : State} {map pix : Bool} (ok : s.FrameOk map pix)
    (h : exec (.encodeFrame true map pix) s = .next t) :
    t.stats = s.stats.update (frameBits s.S.val s.L s.HW) s.env.ioUsec s.env.tNow (s.frameAmps map pix) :=
  congrArg State.stats (exec_encodeFrame_of_ok ok h)

/-- Settles O39: what both ENCODEs do is `State.framesTo`, and each group of the update has its field equations. -/
theorem encodeUpdatesTheRecord : Obligations.EncodeUpdatesTheRecord := by
  rintro s map pix _ _ _ _ ok clock rfl rfl rfl rfl
  obtain ⟨u, hu, -⟩ := encodeRendersTheFrame s map pix ok
  have ht := exec_encodeFrame_of_clock ok clock
  have frame : s.framesTo map pix (s.frameStats true map pix) =
      { u with stats := s.frameStats true map pix } := by
    obtain rfl := exec_encodeFrame_of_ok ok hu
    rfl
  refine ⟨_, u, ht, hu, frame, ?_⟩
  rw [exec_encodeFrame_stats ok ht]
  refine ⟨Stats.update_bits .., (Stats.update_bits ..).trans (frameBits_eq s), Stats.update_usecIo ..,
    Stats.update_usecIoTotal .., ?_, Stats.update_bitsTotal .., ?_, Stats.update_ma .., Stats.update_maPeak ..,
    Stats.update_lastTime .., Stats.update_frames .., fun first => ?_, fun later => ?_⟩
  · exact (Stats.update_bps ..).trans (Stats.throughput_bps ..)
  · rw [Stats.update_usecIoTotal, Stats.update_bitsTotal, Stats.update_bps, Stats.update_bpsAvg]
    exact Stats.throughput_bpsAvg ..
  · rw [Stats.update_of_first first]
    exact ⟨rfl, rfl, rfl, rfl, rfl, rfl, rfl⟩
  · rw [Stats.update_of_later later]
    exact ⟨Nat.sub_add_cancel (clock later), rfl, Stats.period_fps .., Stats.period_fpsAvg .., Stats.period_mah .., rfl,
      Stats.period_maAvg ..⟩

/-- The rates of the period group (rule R134): the initial zeros on the first frame, `rateOrZero` of the denominator
later. -/
theorem Stats.update_period_rates {r u : Stats} {bits io now : Nat} {sum : ℚ}
    (initial : r.frames = 0 → r = Stats.zero) (hu : u = r.update bits io now sum) :
    (u.usecFrame = 0 ∨ r.frames = 0 → u.fps = 0) ∧ (u.usecFrameTotal = 0 → u.maAvg = 0 ∧ u.fpsAvg = 0) := by
  obtain first | later := Nat.eq_zero_or_pos r.frames
  · rw [Stats.update_of_first first, initial first] at hu
    subst hu
    exact ⟨fun _ => rfl, fun _ => ⟨rfl, rfl⟩⟩
  · rw [Stats.update_of_later later] at hu
    subst hu
    exact ⟨fun h => (Stats.period_fps ..).trans (rateOrZero_of_eq_zero _ (h.resolve_right later.ne')),
      fun h => ⟨(Stats.period_maAvg ..).trans (rateOrZero_of_eq_zero _ h),
        (Stats.period_fpsAvg ..).trans (rateOrZero_of_eq_zero _ h)⟩⟩

/-- Settles O47: with no I/O time in total the average is the frame's own rate, whose I/O time is 0 too. -/
theorem ratesAreZeroNotGarbage : Obligations.RatesAreZeroNotGarbage := by
  intro s t map pix ok initial h
  have hstats := exec_encodeFrame_stats ok h
  obtain ⟨hfps, havg⟩ := Stats.update_period_rates initial hstats
  refine ⟨fun hio => ?_, hfps, havg, fun htotal => ?_⟩
  · rw [hstats, Stats.update_usecIo] at hio
    rw [hstats, Stats.update_bps, Stats.throughput_bps, rateOrZero_of_eq_zero _ hio]
  · rw [hstats, Stats.update_usecIoTotal] at htotal
    rw [hstats, Stats.update_bpsAvg, Stats.throughput_bpsAvg, if_neg htotal.not_gt, Stats.throughput_bps,
      rateOrZero_of_eq_zero _ (Nat.add_eq_zero_iff.1 htotal).2]

/-! ### The counters -/

/-- An operation leaves the record as it is, or updates it after a frame (rules R10, R135). -/
theorem exec_stats_cases {i : Instr} {s t : State} (h : exec i s = .next t) :
    t.stats = s.stats ∨ ∃ map pix,
      t.stats = s.stats.update (frameBits s.S.val s.L s.HW) s.env.ioUsec s.env.tNow (s.frameAmps map pix) := by
  by_cases same : t.stats = s.stats
  · exact .inl same
  · obtain ⟨map, pix, rfl⟩ := (exec_effect h).stats_writers same
    by_cases ok : s.FrameOk map pix
    · exact .inr ⟨map, pix, exec_encodeFrame_stats ok h⟩
    · cases (encodeChecksFirst s true map pix ok).symm.trans h
      exact absurd rfl same

/-- The frame time only grows (rule R126). -/
theorem Stats.usecFrameTotal_le_update (r : Stats) (bits io now : Nat) (sum : ℚ) :
    r.usecFrameTotal ≤ (r.update bits io now sum).usecFrameTotal := by
  obtain first | later := Nat.eq_zero_or_pos r.frames
  · rw [Stats.update_of_first first]
    exact le_rfl
  · rw [Stats.update_of_later later]
    exact Nat.le_add_right ..

/-- The charge only grows when the last current is not negative (rule R129). -/
theorem Stats.mahTotal_le_update {r : Stats} (hma : 0 ≤ r.ma) (bits io now : Nat) (sum : ℚ) :
    r.mahTotal ≤ (r.update bits io now sum).mahTotal := by
  obtain first | later := Nat.eq_zero_or_pos r.frames
  · rw [Stats.update_of_first first]
    exact le_rfl
  · have hmah : 0 ≤ ((r.throughput bits io).period now).mah := by
      rw [Stats.period_mah]
      exact div_nonneg (mul_nonneg hma (Nat.cast_nonneg _)) (by norm_num)
    rw [Stats.update_of_later later]
    exact le_add_of_nonneg_right hmah

theorem slotCurrent_nonneg {c : Cal} (hc : c.Legal) (kind : SlotKind) (v : Rgb) : 0 ≤ slotCurrent c kind v := by
  have hbase : 0 ≤ c.base := hc.1
  cases kind with
  | lit => exact hbase.trans (base_le_current hc v)
  | off => exact hbase
  | disc => exact le_rfl

theorem State.frameAmps_nonneg {s : State} (hc : s.cfg.cal.Legal) (map pix : Bool) : 0 ≤ s.frameAmps map pix := by
  refine List.sum_nonneg fun a ha => ?_
  obtain ⟨i, -, rfl⟩ := List.mem_map.1 ha
  exact slotCurrent_nonneg hc _ _

/-- Settles O48: only an update writes the record, and each of its counters grows. -/
theorem countersNeverDecrease : Obligations.CountersNeverDecrease := by
  intro i s t h
  obtain same | ⟨map, pix, updated⟩ := exec_stats_cases h
  · rw [same]
    exact ⟨⟨le_rfl, le_rfl, le_rfl, le_rfl⟩, fun _ hma => ⟨le_rfl, hma⟩⟩
  · rw [updated, Stats.update_frames, Stats.update_bitsTotal, Stats.update_usecIoTotal, Stats.update_ma]
    refine ⟨⟨Nat.le_add_right .., Nat.le_add_right .., Nat.le_add_right .., Stats.usecFrameTotal_le_update ..⟩, ?_⟩
    rintro ⟨-, -, -, hcal⟩ hma
    exact ⟨Stats.mahTotal_le_update hma .., State.frameAmps_nonneg hcal map pix⟩

end Sys2Proof.Machine
end

section
/-! OPEN refused, OPEN failing in the transport, and CLOSE: what leaves the block Closed (rules R140, R141, R146, R148 to
R150). -/

namespace Sys2Proof.Machine

/-! ### The checks of OPEN -/

/-- OPEN refuses an Open block (rule R148). -/
theorem execOpen_of_opened {s : State} (hw : Bool) (n ppix : Nat) (h : s.opened = true) :
    execOpen hw n ppix s = .next (s.raise .invalidParameter) := by
  rw [execOpen, openCheck, if_pos h]

/-- The software clock needs entry 7 of the pin map, so it leaves no pin for strand 8 (rule R140). -/
theorem execOpen_of_software_eight (s : State) (ppix : Nat) :
    execOpen false 8 ppix s = .next (s.raise .invalidParameter) := by
  rw [execOpen, openCheck, if_pos (⟨rfl, rfl⟩ : false = false ∧ 8 = 8), ite_self, ite_self]

/-- OPEN refuses strands without pixels (rule R140). -/
theorem execOpen_of_no_pixels (s : State) (hw : Bool) (n : Nat) :
    execOpen hw n 0 s = .next (s.raise .invalidParameter) := by
  rw [execOpen, openCheck, if_pos (rfl : 0 = 0), ite_self, ite_self, ite_self]

/-- Past its four other checks, OPEN refuses more pixels than the instance holds (rule R140). -/
theorem execOpen_of_above_capacity {s : State} {hw : Bool} {n ppix : Nat} (closed : s.opened = false) (h1 : 1 ≤ n)
    (h8 : n ≤ 8) (hsw : hw = false → n ≤ 7) (hp : 1 ≤ ppix) (h : s.cfg.pMax < ppix) :
    execOpen hw n ppix s = .next (s.raise .allocationFailure) := by
  have hopened : ¬ s.opened = true := by rw [closed]; decide
  have hsoftware : ¬ (hw = false ∧ n = 8) := fun ⟨hhw, hn⟩ => absurd (hsw hhw) (by omega)
  rw [execOpen, openCheck, if_neg hopened, if_neg (by omega), if_neg hsoftware, if_neg (by omega), if_pos h]

/-- Settles O29: one lemma a check, and `raise` writes `STATUS` only. -/
theorem openChecksItsOperands : Obligations.OpenChecksItsOperands := by
  intro s hw n ppix
  refine ⟨?_, execOpen_of_above_capacity⟩
  rintro (hopened | hzero | hmany | ⟨rfl, rfl⟩ | rfl)
  · exact execOpen_of_opened hw n ppix hopened
  · exact execOpen_of_strands_out_of_range hw ppix (.inl hzero)
  · exact execOpen_of_strands_out_of_range hw ppix (.inr hmany)
  · exact execOpen_of_software_eight s ppix
  · exact execOpen_of_no_pixels s hw n

/-! ### The failures of the transport -/

/-- OPEN past its checks (rule R142). -/
theorem execOpen_of_ok {s : State} {hw : Bool} {n ppix : Nat} (closed : s.opened = false) (ok : s.OpenOk hw n ppix) :
    execOpen hw n ppix s = .next (s.allocate hw n ppix).openSequence := by
  rw [execOpen, (openCheck_eq_none s hw n ppix).2 ⟨closed, ok⟩]

/-- Unwinding a sound Closed block changes nothing: its session is empty already (rules R11, R24). -/
theorem State.SessionInv.unwind_eq {s : State} (h : s.SessionInv) (closed : s.opened = false) : s.unwind = s := by
  obtain ⟨hS, hP, hHW, hout, hcura⟩ := h.closed closed
  cases s
  cases closed; cases hS; cases hP; cases hHW; cases hout; cases hcura
  rfl

/-- Unwinding forgets the session that was being opened (rule R146). -/
theorem State.allocate_unwind (s : State) (hw : Bool) (n ppix : Nat) : (s.allocate hw n ppix).unwind = s.unwind := rfl

/-- Unwinding after the write of the all-off frame keeps of the session no more than that write (rules R144, R146). -/
theorem State.allocate_transmit_unwind (s : State) (hw : Bool) (n ppix : Nat) :
    (s.allocate hw n ppix).latch.renderAllOff.transmit.unwind =
      { s.unwind with
        handed := openFrame hw ppix s.CLK (allMasks { s with S := Fin.ofNat 9 n }) :: s.handed } :=
  congrArg (fun frame => { s.unwind with handed := frame :: s.handed }) (outRun_allOff (s.allocate hw n ppix))

/-- Settles O30: each failing sequence ends in `unwind`, which gives a sound Closed block back. -/
theorem openFailureUnwinds : Obligations.OpenFailureUnwinds := by
  intro s hw n ppix sound closed ok
  have hunwind := sound.unwind_eq closed
  have hexec : exec (.openSession hw n ppix) s = _ := execOpen_of_ok closed ok
  rw [hexec, State.openSequence, State.allocate_env]
  refine ⟨fun h => ?_, fun h => ?_, fun h => ?_⟩
  · simp only [h, State.allocate_unwind, hunwind, State.raise_eq]
  · simp only [h, State.allocate_unwind, hunwind, State.raise_eq]
  · simp only [h, State.allocate_transmit_unwind, hunwind, State.raise_eq]

/-! ### CLOSE -/

/-- CLOSE of an Open block unwinds the session (rule R149). -/
theorem execClose_of_open {s : State} (h : s.opened = true) : execClose s = .next (s.unwind.done .ok) := by
  rw [execClose, if_pos h]

/-- CLOSE of a Closed block writes `STATUS` only (rule R150). -/
theorem execClose_of_closed {s : State} (h : s.opened = false) : execClose s = .next (s.done .ok) := by
  rw [execClose, h]
  rfl

/-- Whatever the block was, CLOSE leaves it Closed with OK in `STATUS` (rules R149, R150). -/
theorem execClose_closed {s t : State} (h : execClose s = .next t) : t.opened = false ∧ t.status = .ok := by
  cases ho : s.opened with
  | false =>
    cases (execClose_of_closed ho).symm.trans h
    exact ⟨ho, rfl⟩
  | true =>
    cases (execClose_of_open ho).symm.trans h
    exact ⟨rfl, rfl⟩

/-- Settles O35: CLOSE leaves a Closed block whose `STATUS` is OK, and of such a block CLOSE changes nothing. -/
theorem closeEndsTheSession : Obligations.CloseEndsTheSession := by
  refine ⟨by decide, fun s => ⟨execClose_of_open, execClose_of_closed, fun t ht => ?_⟩⟩
  obtain ⟨closed, hstatus⟩ := execClose_closed ht
  have hsame : t.done .ok = t := by rw [State.done, ← hstatus]
  exact (execClose_of_closed closed).trans (congrArg _ hsame)

end Sys2Proof.Machine
end

section
/-! A gamma table set before OPEN: lost by a successful OPEN, kept by a failed one (rule R179). -/

namespace Sys2Proof.Machine

/-- A failed check of OPEN answers a failure code (rules R63, R140). -/
theorem openCheck_isFailure {s : State} {hw : Bool} {n ppix : Nat} {k : Status} (h : openCheck s hw n ppix = some k) :
    k.isFailure = true := by
  unfold openCheck at h
  split_ifs at h <;> cases h <;> rfl

/-- A warning is no failure (rules R63, R147). -/
theorem OpenWarning.status_isFailure (w : OpenWarning) : w.status.isFailure = false := by
  cases w <;> rfl

/-- A failed transport answers a failure code, and no step before the failure reads or writes `GAMMA` (rules R145, R146). -/
theorem State.openSequence_failure {s : State} (bad : s.env.openOutcome ≠ .good) :
    s.openSequence.status.isFailure = true ∧ ∀ g, (s.setGamma g).openSequence = s.openSequence.setGamma g := by
  unfold State.openSequence
  simp only [State.setGamma_env]
  cases h : s.env.openOutcome with
  | good => exact absurd h bad
  | deviceOpenFailure => exact ⟨rfl, fun _ => rfl⟩
  | bitModeFailure => exact ⟨rfl, fun _ => rfl⟩
  | transmitFailure => exact ⟨rfl, fun _ => rfl⟩

/-- OPEN from `s` with any table in `GAMMA`: all these runs succeed and end in one state, or all fail and each keeps its
table. -/
theorem execOpen_setGamma_cases (s : State) (hw : Bool) (n ppix : Nat) :
    (∀ g, execOpen hw n ppix (s.setGamma g) = .next (s.opensTo hw n ppix)) ∨
    ∃ u : State, u.status.isFailure = true ∧ ∀ g, execOpen hw n ppix (s.setGamma g) = .next (u.setGamma g) := by
  cases hc : openCheck s hw n ppix with
  | some k =>
    have hrun (g : GammaTable) : execOpen hw n ppix (s.setGamma g) = .next ((s.raise k).setGamma g) := by
      have hcg : openCheck (s.setGamma g) hw n ppix = some k := hc
      rw [execOpen, hcg]
      rfl
    exact .inr ⟨s.raise k, openCheck_isFailure hc, hrun⟩
  | none =>
    obtain ⟨closed, ok⟩ := (openCheck_eq_none s hw n ppix).1 hc
    by_cases good : s.env.openOutcome = .good
    · exact .inl fun g => execOpen_good (s := s.setGamma g) closed ok good
    · obtain ⟨failed, kept⟩ := State.openSequence_failure (s := s.allocate hw n ppix) good
      exact .inr ⟨_, failed, fun g => (execOpen_of_ok (s := s.setGamma g) closed ok).trans (congrArg _ (kept g))⟩

/-- Settles O33: the given run is the one with `GAMMA` as it stands, the other the one with `g` there. -/
theorem openForgetsTheGammaTable : Obligations.OpenForgetsTheGammaTable := by
  intro s t g hw n ppix h
  obtain succeeds | ⟨u, failed, fails⟩ := execOpen_setGamma_cases s hw n ppix
  · cases (succeeds s.gamma).symm.trans h
    have hstatus : (s.opensTo hw n ppix).status.isFailure = false := s.env.warn.status_isFailure
    exact ⟨fun hf => absurd (hstatus.symm.trans hf) Bool.false_ne_true, fun _ => ⟨rfl, succeeds g⟩⟩
  · cases (fails s.gamma).symm.trans h
    exact ⟨fun _ => ⟨rfl, fails g⟩, fun hf => absurd (failed.symm.trans hf) Bool.false_ne_true.symm⟩

end Sys2Proof.Machine
end
